-- ==== Sys2Proof/Word.lean ====
section
/-! DEFINITION. Word.lean: the widths the core works in (spec/00_scope.md R5, R7) and the plainest arithmetic on them. -/

namespace Sys2Proof

/-- A general register, a timer or a byte of memory (R21, R27, R28, R50): 8 bits, unsigned. -/
abbrev Byte := BitVec 8

/-- The instruction word, I, pc and a return address (R7, R23, R24, R25): 16 bits, unsigned. -/
abbrev Word := BitVec 16

/-- The field NNN, a byte address 0..4095 (R71, R73). -/
abbrev Addr := BitVec 12

/-- The number of a general register, V0 to VF (R21). -/
abbrev Reg := Fin 16

/-- V[15], the register that doubles as the only flag (R22). -/
abbrev vf : Reg := 15

/-- `zext_16` of R8: zeros in the new high bits. -/
abbrev zext16 {n : Nat} (v : BitVec n) : Word := v.setWidth 16

/-- A flag value written to VF: 1 or 0 (R22). -/
def flagByte (b : Bool) : Byte := if b then 1 else 0

@[simp] theorem flagByte_true : flagByte true = 1 := rfl
@[simp] theorem flagByte_false : flagByte false = 0 := rfl

end Sys2Proof
end

