-- ==== Sys2Proof/Config.lean ====
section
/-! DEFINITION. Config.lean: the open parameters of the hardware (spec/00_scope.md R6) and the free value of the model. The
fixed sizes of R5 are constants, written as numbers where they are used, since a bound must be a number for arithmetic to see
it: MEMSIZE 4096, NSTACK 16, FBW 64 and FBH 32 (2048 pixels), NKEY 16, ILEN 2, ENTRY 512 = 0x200, GLYPH_LEN 80,
IMAGE_MAX 3584. -/

namespace Sys2Proof

/-- The parameters of R6 that are fixed for a run and across resets. GLYPH is 80 bytes; MEM_FILL gives every address of
80..4095 a byte. Neither is state (R20): they only fix the contents of memory after reset. -/
structure Params where
  glyph : Fin 80 → Byte
  memFill : Nat → Byte

/-- The contents of memory after reset and before load (R41): GLYPH below 80, MEM_FILL above. -/
def Params.resetByte (p : Params) (a : Nat) : Byte :=
  if h : a < 80 then p.glyph ⟨a, h⟩ else p.memFill a

/-- FREE VALUE. The byte of a CXNN for which the environment has laid none ready (R38, R174: "a free draw under no law";
log 4). It has no body that a proof can use, and each draw reads it at a fresh number (the field rndDraws of State). -/
opaque Config.freeRandomByte : Nat → Byte

end Sys2Proof
end

