-- ==== Sys2Proof/Syntax.lean ====
section
/-! DEFINITION. Syntax.lean: the 34 instructions of the opcode table (spec/30_encoding.md R75), one constructor a row, each
carrying its operand fields (R10, R71). The fields' types admit exactly the values the encoding admits (R73). -/

namespace Sys2Proof

/-- An instruction of the core. UNKNOWN (R96) is no instruction: a word that matches no row (R78). -/
inductive Instr where
  /-- 00E0: clear the framebuffer (R151). -/
  | cls
  /-- 00EE: return (R101). -/
  | ret
  /-- 1NNN: jump (R102). -/
  | jp (nnn : Addr)
  /-- 2NNN: call (R103). -/
  | call (nnn : Addr)
  /-- 3XNN: skip if V[X] = NN (R111). -/
  | seImm (x : Reg) (nn : Byte)
  /-- 4XNN: skip if V[X] != NN (R112). -/
  | sneImm (x : Reg) (nn : Byte)
  /-- 5XY0: skip if V[X] = V[Y] (R113). -/
  | seReg (x y : Reg)
  /-- 6XNN: V[X] <- NN (R121). -/
  | ldImm (x : Reg) (nn : Byte)
  /-- 7XNN: V[X] <- V[X] + NN (R122). -/
  | addImm (x : Reg) (nn : Byte)
  /-- 8XY0: V[X] <- V[Y] (R123). -/
  | ldReg (x y : Reg)
  /-- 8XY1: V[X] <- V[X] OR V[Y] (R124). -/
  | orReg (x y : Reg)
  /-- 8XY2: V[X] <- V[X] AND V[Y] (R125). -/
  | andReg (x y : Reg)
  /-- 8XY3: V[X] <- V[X] XOR V[Y] (R126). -/
  | xorReg (x y : Reg)
  /-- 8XY4: add, carry to VF (R127). -/
  | addReg (x y : Reg)
  /-- 8XY5: V[X] - V[Y], VF = (V[X] > V[Y]) (R128). -/
  | sub (x y : Reg)
  /-- 8XY6: shift V[X] right by one; Y is decoded and ignored (R129). -/
  | shr (x y : Reg)
  /-- 8XY7: V[Y] - V[X], VF = (V[X] < V[Y]) (R130). -/
  | subn (x y : Reg)
  /-- 8XYE: shift V[X] left by one; Y is decoded and ignored (R131). -/
  | shl (x y : Reg)
  /-- 9XY0: skip if V[X] != V[Y] (R114). -/
  | sneReg (x y : Reg)
  /-- ANNN: I <- NNN (R141). -/
  | ldI (nnn : Addr)
  /-- BNNN: jump to V[0] + NNN (R104). -/
  | jpV0 (nnn : Addr)
  /-- CXNN: V[X] <- random byte AND NN (R174). -/
  | rnd (x : Reg) (nn : Byte)
  /-- DXYN: XOR a sprite of N rows at (V[X], V[Y]) (R152). -/
  | drw (x y : Reg) (n : Fin 16)
  /-- EX9E: skip if key V[X] is pressed (R161). -/
  | skp (x : Reg)
  /-- EXA1: skip if key V[X] is not pressed (R162). -/
  | sknp (x : Reg)
  /-- FX07: V[X] <- DT (R171). -/
  | ldVxDt (x : Reg)
  /-- FX0A: wait for a key event, V[X] <- its index (R163). -/
  | ldVxK (x : Reg)
  /-- FX15: DT <- V[X] (R172). -/
  | ldDtVx (x : Reg)
  /-- FX18: ST <- V[X] (R173). -/
  | ldStVx (x : Reg)
  /-- FX1E: I <- I + V[X], VF = overflow of 16 bits (R142). -/
  | addI (x : Reg)
  /-- FX29: I <- MEM[V[X]] (R143). -/
  | ldF (x : Reg)
  /-- FX33: the three decimal digits of V[X] to MEM[I..I+2] (R144). -/
  | bcd (x : Reg)
  /-- FX55: V[0..X] to MEM[I..I+X] (R145). -/
  | stRegs (x : Reg)
  /-- FX65: MEM[I..I+X] to V[0..X] (R146). -/
  | ldRegs (x : Reg)
  deriving DecidableEq, Repr

end Sys2Proof
end

