-- ==== Sys2Proof/WellFormed.lean ====
section
/-! DEFINITION. WellFormed.lean: when a term stands for an instruction. An `Instr` is well-formed by its types (every X, Y, N,
NN, NNN of R71 is legal, R73), so the checks are those of the assembler's lines, whose operands are plain numbers: the form must
be a row of R75's assembler column, a register must be V0 to VF, a numeral must fit its field "or the line is an error" (R81). -/

namespace Sys2Proof

/-- The first words of R75's assembler column. -/
inductive Keyword where
  | CLS | RET | JP | CALL | SE | SNE | LD | ADD | OR | AND | XOR | SUB | SHR | SUBN | SHL | RND | DRW | SKP | SKNP
  deriving DecidableEq, Repr

/-- An operand as written (R81): `Vn`, a numeral, a label (R82), or one of the fixed tokens. -/
inductive Operand where
  | v (n : Nat)
  | num (n : Nat)
  | label (name : String)
  | I | DT | ST | K | F | B | atI
  deriving DecidableEq, Repr

/-- One line of assembler text (R81), taken apart into its words. -/
structure AsmLine where
  keyword : Keyword
  operands : List Operand
  deriving DecidableEq, Repr

/-- Why a line is an error (R81, R82). -/
inductive AsmError where
  /-- The keyword and operands are no row of R75's assembler column. -/
  | noSuchForm
  /-- A register outside V0 to VF. -/
  | badRegister (n : Nat)
  /-- A numeral that does not fit its field of `bits` bits. -/
  | tooWide (n bits : Nat)
  /-- A label that no line defines. -/
  | unknownLabel (name : String)
  deriving DecidableEq, Repr

/-- `Vx` is V0 to VF (R81). -/
def asmReg (n : Nat) : Except AsmError Reg :=
  if h : n < 16 then .ok ⟨n, h⟩ else .error (.badRegister n)

/-- A numeral must fit its field (R81). -/
def asmNum (bits n : Nat) : Except AsmError (BitVec bits) :=
  if n < 2 ^ bits then .ok (BitVec.ofNat bits n) else .error (.tooWide n bits)

/-- The operand `nnn`: a numeral of 12 bits or a label (R81, R82). -/
def asmAddr (labels : List (String × Nat)) : Operand → Except AsmError Addr
  | .num n => asmNum 12 n
  | .label name => match labels.lookup name with
    | some a => asmNum 12 a
    | none => .error (.unknownLabel name)
  | _ => .error .noSuchForm

/-- The operands `Vx, nn`. -/
def asmXNN (form : Reg → Byte → Instr) (x nn : Nat) : Except AsmError Instr := do
  let r ← asmReg x
  let b ← asmNum 8 nn
  return form r b

/-- The operands `Vx, Vy`. -/
def asmXY (form : Reg → Reg → Instr) (x y : Nat) : Except AsmError Instr := do
  let r ← asmReg x
  let q ← asmReg y
  return form r q

/-- The operands `Vx, Vy, n`. -/
def asmXYN (form : Reg → Reg → Fin 16 → Instr) (x y n : Nat) : Except AsmError Instr := do
  let r ← asmReg x
  let q ← asmReg y
  let b ← asmNum 4 n
  return form r q b.toFin

/-- The instruction an assembler line stands for: the assembler column of R75, read by R81. `SHR Vx` and `SHL Vx` assemble
with Y = 0; a second operand sets the Y field. -/
def AsmLine.toInstr (labels : List (String × Nat)) (l : AsmLine) : Except AsmError Instr :=
  match l.keyword, l.operands with
  | .CLS, [] => .ok .cls
  | .RET, [] => .ok .ret
  | .JP, [a] => .jp <$> asmAddr labels a
  | .JP, [.v 0, a] => .jpV0 <$> asmAddr labels a
  | .CALL, [a] => .call <$> asmAddr labels a
  | .SE, [.v x, .num n] => asmXNN .seImm x n
  | .SNE, [.v x, .num n] => asmXNN .sneImm x n
  | .SE, [.v x, .v y] => asmXY .seReg x y
  | .SNE, [.v x, .v y] => asmXY .sneReg x y
  | .LD, [.v x, .num n] => asmXNN .ldImm x n
  | .ADD, [.v x, .num n] => asmXNN .addImm x n
  | .LD, [.v x, .v y] => asmXY .ldReg x y
  | .OR, [.v x, .v y] => asmXY .orReg x y
  | .AND, [.v x, .v y] => asmXY .andReg x y
  | .XOR, [.v x, .v y] => asmXY .xorReg x y
  | .ADD, [.v x, .v y] => asmXY .addReg x y
  | .SUB, [.v x, .v y] => asmXY .sub x y
  | .SHR, [.v x] => asmXY .shr x 0
  | .SHR, [.v x, .v y] => asmXY .shr x y
  | .SUBN, [.v x, .v y] => asmXY .subn x y
  | .SHL, [.v x] => asmXY .shl x 0
  | .SHL, [.v x, .v y] => asmXY .shl x y
  | .LD, [.I, a] => .ldI <$> asmAddr labels a
  | .RND, [.v x, .num n] => asmXNN .rnd x n
  | .DRW, [.v x, .v y, .num n] => asmXYN .drw x y n
  | .SKP, [.v x] => .skp <$> asmReg x
  | .SKNP, [.v x] => .sknp <$> asmReg x
  | .LD, [.v x, .DT] => .ldVxDt <$> asmReg x
  | .LD, [.v x, .K] => .ldVxK <$> asmReg x
  | .LD, [.DT, .v x] => .ldDtVx <$> asmReg x
  | .LD, [.ST, .v x] => .ldStVx <$> asmReg x
  | .ADD, [.I, .v x] => .addI <$> asmReg x
  | .LD, [.F, .v x] => .ldF <$> asmReg x
  | .LD, [.B, .v x] => .bcd <$> asmReg x
  | .LD, [.atI, .v x] => .stRegs <$> asmReg x
  | .LD, [.v x, .atI] => .ldRegs <$> asmReg x
  | _, _ => .error .noSuchForm

/-- A line is well-formed when it stands for an instruction. -/
def AsmLine.wellFormed (labels : List (String × Nat)) (l : AsmLine) : Bool :=
  match l.toInstr labels with
  | .ok _ => true
  | .error _ => false

end Sys2Proof
end

