-- ==== Sys2Proof/Decode.lean ====
section
/-! DEFINITION. Decode.lean: the opcode map of spec/30_encoding.md as a table of rows (R75), the decoder that reads it (R74,
R92), total on any bytes and rejecting by name, and the encoder written from the formats of R72. -/

namespace Sys2Proof

/-- The format names of R72. -/
inductive Format where
  | OP | NNN | XNN | XY | XYN | X
  deriving DecidableEq, Repr

/-- The X field, op[11:8] (R10, R71). -/
def fieldX (op : Word) : Reg := (op.extractLsb' 8 4).toFin
/-- The Y field, op[7:4] (R10, R71). -/
def fieldY (op : Word) : Reg := (op.extractLsb' 4 4).toFin
/-- The N field, op[3:0] (R10, R71). -/
def fieldN (op : Word) : Fin 16 := (op.extractLsb' 0 4).toFin
/-- The NN field, op[7:0] (R10, R71). -/
def fieldNN (op : Word) : Byte := op.extractLsb' 0 8
/-- The NNN field, op[11:0] (R10, R71). -/
def fieldNNN (op : Word) : Addr := op.extractLsb' 0 12

/-- One row of R75: a word is this row's instruction when `op & mask = pat` (R74); `build` takes its fields from the word. -/
structure Row where
  mnemonic : String
  format : Format
  pat : Word
  mask : Word
  build : Word → Instr

/-- `op & mask = match` (R74). -/
def Row.hits (r : Row) (op : Word) : Bool := op &&& r.mask == r.pat

def rowsFlow : List Row := [
  ⟨"CLS", .OP, 0x00E0, 0xFFFF, fun _ => .cls⟩,
  ⟨"RET", .OP, 0x00EE, 0xFFFF, fun _ => .ret⟩,
  ⟨"JP", .NNN, 0x1000, 0xF000, fun op => .jp (fieldNNN op)⟩,
  ⟨"CALL", .NNN, 0x2000, 0xF000, fun op => .call (fieldNNN op)⟩]

def rowsSkipLoad : List Row := [
  ⟨"SE_IMM", .XNN, 0x3000, 0xF000, fun op => .seImm (fieldX op) (fieldNN op)⟩,
  ⟨"SNE_IMM", .XNN, 0x4000, 0xF000, fun op => .sneImm (fieldX op) (fieldNN op)⟩,
  ⟨"SE_REG", .XY, 0x5000, 0xF00F, fun op => .seReg (fieldX op) (fieldY op)⟩,
  ⟨"LD_IMM", .XNN, 0x6000, 0xF000, fun op => .ldImm (fieldX op) (fieldNN op)⟩,
  ⟨"ADD_IMM", .XNN, 0x7000, 0xF000, fun op => .addImm (fieldX op) (fieldNN op)⟩]

def rowsAlu : List Row := [
  ⟨"LD_REG", .XY, 0x8000, 0xF00F, fun op => .ldReg (fieldX op) (fieldY op)⟩,
  ⟨"OR", .XY, 0x8001, 0xF00F, fun op => .orReg (fieldX op) (fieldY op)⟩,
  ⟨"AND", .XY, 0x8002, 0xF00F, fun op => .andReg (fieldX op) (fieldY op)⟩,
  ⟨"XOR", .XY, 0x8003, 0xF00F, fun op => .xorReg (fieldX op) (fieldY op)⟩,
  ⟨"ADD_REG", .XY, 0x8004, 0xF00F, fun op => .addReg (fieldX op) (fieldY op)⟩,
  ⟨"SUB", .XY, 0x8005, 0xF00F, fun op => .sub (fieldX op) (fieldY op)⟩,
  ⟨"SHR", .XY, 0x8006, 0xF00F, fun op => .shr (fieldX op) (fieldY op)⟩,
  ⟨"SUBN", .XY, 0x8007, 0xF00F, fun op => .subn (fieldX op) (fieldY op)⟩,
  ⟨"SHL", .XY, 0x800E, 0xF00F, fun op => .shl (fieldX op) (fieldY op)⟩]

def rowsMixed : List Row := [
  ⟨"SNE_REG", .XY, 0x9000, 0xF00F, fun op => .sneReg (fieldX op) (fieldY op)⟩,
  ⟨"LD_I", .NNN, 0xA000, 0xF000, fun op => .ldI (fieldNNN op)⟩,
  ⟨"JP_V0", .NNN, 0xB000, 0xF000, fun op => .jpV0 (fieldNNN op)⟩,
  ⟨"RND", .XNN, 0xC000, 0xF000, fun op => .rnd (fieldX op) (fieldNN op)⟩,
  ⟨"DRW", .XYN, 0xD000, 0xF000, fun op => .drw (fieldX op) (fieldY op) (fieldN op)⟩,
  ⟨"SKP", .X, 0xE09E, 0xF0FF, fun op => .skp (fieldX op)⟩,
  ⟨"SKNP", .X, 0xE0A1, 0xF0FF, fun op => .sknp (fieldX op)⟩]

def rowsF : List Row := [
  ⟨"LD_VX_DT", .X, 0xF007, 0xF0FF, fun op => .ldVxDt (fieldX op)⟩,
  ⟨"LD_VX_K", .X, 0xF00A, 0xF0FF, fun op => .ldVxK (fieldX op)⟩,
  ⟨"LD_DT_VX", .X, 0xF015, 0xF0FF, fun op => .ldDtVx (fieldX op)⟩,
  ⟨"LD_ST_VX", .X, 0xF018, 0xF0FF, fun op => .ldStVx (fieldX op)⟩,
  ⟨"ADD_I", .X, 0xF01E, 0xF0FF, fun op => .addI (fieldX op)⟩,
  ⟨"LD_F", .X, 0xF029, 0xF0FF, fun op => .ldF (fieldX op)⟩,
  ⟨"BCD", .X, 0xF033, 0xF0FF, fun op => .bcd (fieldX op)⟩,
  ⟨"ST_REGS", .X, 0xF055, 0xF0FF, fun op => .stRegs (fieldX op)⟩,
  ⟨"LD_REGS", .X, 0xF065, 0xF0FF, fun op => .ldRegs (fieldX op)⟩]

/-- The complete map of R75: 34 rows. -/
def opcodeTable : List Row := rowsFlow ++ rowsSkipLoad ++ rowsAlu ++ rowsMixed ++ rowsF

/-- Why bytes are no instruction. -/
inductive DecodeReject where
  /-- Fewer than the two bytes every instruction has (R70). -/
  | tooFewBytes (n : Nat)
  /-- A word that matches no row: executed as UNKNOWN (R77, R78, R96). -/
  | unknownOpcode (op : Word)
  deriving DecidableEq, Repr

/-- Decode of R90, R92: the one row that matches, or none. -/
def decode (op : Word) : Except DecodeReject Instr :=
  match opcodeTable.find? (fun r => r.hits op) with
  | some r => .ok (r.build op)
  | none => .error (.unknownOpcode op)

/-- The instruction at the head of a byte stream and the bytes after it: two bytes, the first in bits 15..8 (R56, R70). -/
def decodeBytes : List Byte → Except DecodeReject (Instr × List Byte)
  | hi :: lo :: rest => (fun i => (i, rest)) <$> decode (hi ++ lo)
  | bytes => .error (.tooFewBytes bytes.length)

/-- Format NNN of R72. -/
def encNNN (f : BitVec 4) (nnn : Addr) : Word := f ++ nnn
/-- Format XNN of R72. -/
def encXNN (f : BitVec 4) (x : Reg) (nn : Byte) : Word := f ++ (BitVec.ofFin x : BitVec 4) ++ nn
/-- Formats XY and XYN of R72. -/
def encXYN (f : BitVec 4) (x y : Reg) (n : BitVec 4) : Word := f ++ (BitVec.ofFin x : BitVec 4) ++ (BitVec.ofFin y : BitVec 4) ++ n

/-- The word of an instruction: the pattern column of R75 with the fields in the places of R72. -/
def encode : Instr → Word
  | .cls => 0x00E0
  | .ret => 0x00EE
  | .jp nnn => encNNN 0x1 nnn
  | .call nnn => encNNN 0x2 nnn
  | .seImm x nn => encXNN 0x3 x nn
  | .sneImm x nn => encXNN 0x4 x nn
  | .seReg x y => encXYN 0x5 x y 0x0
  | .ldImm x nn => encXNN 0x6 x nn
  | .addImm x nn => encXNN 0x7 x nn
  | .ldReg x y => encXYN 0x8 x y 0x0
  | .orReg x y => encXYN 0x8 x y 0x1
  | .andReg x y => encXYN 0x8 x y 0x2
  | .xorReg x y => encXYN 0x8 x y 0x3
  | .addReg x y => encXYN 0x8 x y 0x4
  | .sub x y => encXYN 0x8 x y 0x5
  | .shr x y => encXYN 0x8 x y 0x6
  | .subn x y => encXYN 0x8 x y 0x7
  | .shl x y => encXYN 0x8 x y 0xE
  | .sneReg x y => encXYN 0x9 x y 0x0
  | .ldI nnn => encNNN 0xA nnn
  | .jpV0 nnn => encNNN 0xB nnn
  | .rnd x nn => encXNN 0xC x nn
  | .drw x y n => encXYN 0xD x y (BitVec.ofFin n)
  | .skp x => encXNN 0xE x 0x9E
  | .sknp x => encXNN 0xE x 0xA1
  | .ldVxDt x => encXNN 0xF x 0x07
  | .ldVxK x => encXNN 0xF x 0x0A
  | .ldDtVx x => encXNN 0xF x 0x15
  | .ldStVx x => encXNN 0xF x 0x18
  | .addI x => encXNN 0xF x 0x1E
  | .ldF x => encXNN 0xF x 0x29
  | .bcd x => encXNN 0xF x 0x33
  | .stRegs x => encXNN 0xF x 0x55
  | .ldRegs x => encXNN 0xF x 0x65

/-- A word as memory holds it: the high byte first (R56). -/
def wordBytes (op : Word) : List Byte := [op.extractLsb' 8 8, op.extractLsb' 0 8]

/-- The bytes of an instruction in the image (R56, R70). -/
def encodeBytes (i : Instr) : List Byte := wordBytes (encode i)

/-- The instruction the decoder reads from a word of `nbits` bits as spec/opcode_table.json numbers them (bit 0 the least
significant of the one 16-bit word), the bits above `nbits` zero. -/
def decodeTableWord (nbits w : Nat) : Option Instr :=
  match decodeBytes (wordBytes (BitVec.ofNat 16 (w % 2 ^ nbits))) with
  | .ok (i, _) => some i
  | .error _ => none

end Sys2Proof
end

