-- ==== Sys2Proof/Machine/State.lean ====
section
/-! DEFINITION. Machine/State.lean: the state of the core (spec/10_state.md R20 to R33), plain data, and the state after reset
(R41). The last three fields hold inputs of a step (R37, R38), which are not the spec's state but the model's own. -/

namespace Sys2Proof.Machine

/-- MEM (R50) as the bytes that differ from what an unlisted address reads as, by rising address (`Memory.wf`,
`Memory.unlisted` in Machine/Memory.lean). -/
abbrev Memory := List Host.Cell

/-- FB (R29): 32 rows of 64 one-bit pixels; the pixel of index p = x + 64 * y is bit x of row y (log 11). -/
abbrev Framebuffer := Vector (BitVec 64) 32

/-- FAULT, the fault record (R33), with the widths the rule gives. -/
structure FaultRecord where
  valid : Bool
  cause : BitVec 3
  fpc : Word
  fop : Word
  finfo : BitVec 17
  deriving DecidableEq, Repr

/-- The whole state of the machine (R20), then the inputs the host and the environment have laid ready. -/
structure State where
  /-- V[0..15] (R21), V[15] being the flag VF (R22). -/
  v : Vector Byte 16
  /-- I, the address register (R23). -/
  I : Word
  /-- The program counter (R24). -/
  pc : Word
  /-- STACK[0..15] (R25). -/
  stack : Vector Word 16
  /-- SP, the number of return addresses on the stack, 0..16 (R26). -/
  sp : Fin 17
  /-- DT, the delay timer (R27). -/
  dt : Byte
  /-- ST, the sound timer (R28). -/
  st : Byte
  /-- FB, the framebuffer (R29). -/
  fb : Framebuffer
  /-- DIRTY, the draw-dirty flag (R30). -/
  dirty : Bool
  /-- KEYS, the key snapshot: bit k is key k, 1 = pressed (R31). -/
  keys : BitVec 16
  /-- FAULT, the fault record (R33). -/
  fault : FaultRecord
  /-- MEM (R50). -/
  mem : Memory
  /-- The host's answers to the coming FX0A queries, in order; empty while the host has not answered (R37; log 5). -/
  keyAnswers : List Reg
  /-- Bytes the environment has ready for the coming CXNN cycles, in order (R38; log 4). -/
  rndSupply : List Byte
  /-- How many random bytes were drawn from the free value `Config.freeRandomByte` (log 4). -/
  rndDraws : Nat
  deriving DecidableEq, Repr

/-- Reasons for `Host.Outcome.fault`: NONE. The seven faults of the spec are taken by the core itself, as next states with
the FAULT record written (R181; log 6); no step of this machine ends in `Host.Outcome.fault`. Safe. -/
inductive Fault where
  deriving DecidableEq, Repr

/-- Reasons for `Host.Outcome.refused`. -/
inductive Refusal where
  /-- Raised by an arm of `exec` whose instruction has no meaning yet; no arm of this model does. Safe. -/
  | notModelled (mnemonic : String)
  deriving DecidableEq, Repr

/-- What a meaning and a step answer. -/
abbrev Result := Host.Outcome State Fault Refusal

/-- FAULT after reset: "valid = 0, other fields 0" (R41). -/
abbrev FaultRecord.none : FaultRecord := ⟨false, 0, 0, 0, 0⟩

/-- The machine right after reset (R41). Memory lists nothing: MEM[0..79] is GLYPH and MEM[80..4095] is MEM_FILL, here the
family's glyph table (log 1) and zero (log 2), and KEYS, which the spec leaves unspecified, is zero (log 3);
`State.resetWith` of Machine/Transactions.lean is reset for every GLYPH, MEM_FILL and KEYS. -/
def State.reset : State where
  v := Vector.replicate 16 0
  I := 0
  pc := 0x200
  stack := Vector.replicate 16 0
  sp := 0
  dt := 0
  st := 0
  fb := Vector.replicate 32 0
  dirty := false
  keys := 0
  fault := FaultRecord.none
  mem := []
  keyAnswers := []
  rndSupply := []
  rndDraws := 0

end Sys2Proof.Machine
end

