-- ==== Sys2Proof/Machine/Memory.lean ====
section
/-! DEFINITION. Machine/Memory.lean: MEM (spec/20_memory.md): what an address that no entry lists reads as, reading and
writing one byte, the canonical form, and the lists of bytes and checks that the transfers use. Addresses are natural numbers
and are never reduced (R53). -/

namespace Sys2Proof.Machine

/-- The glyphs of the digits 0 to 7 of the table that R203 gives from general knowledge (PRESUMED; log 1). -/
def glyphsLow : List Byte :=
  [0xF0, 0x90, 0x90, 0x90, 0xF0] ++ [0x20, 0x60, 0x20, 0x20, 0x70] ++ [0xF0, 0x10, 0xF0, 0x80, 0xF0] ++
  [0xF0, 0x10, 0xF0, 0x10, 0xF0] ++ [0x90, 0x90, 0xF0, 0x10, 0x10] ++ [0xF0, 0x80, 0xF0, 0x10, 0xF0] ++
  [0xF0, 0x80, 0xF0, 0x90, 0xF0] ++ [0xF0, 0x10, 0x20, 0x40, 0x40]

/-- The glyphs of the digits 8 to F of the same table. -/
def glyphsHigh : List Byte :=
  [0xF0, 0x90, 0xF0, 0x90, 0xF0] ++ [0xF0, 0x90, 0xF0, 0x10, 0xF0] ++ [0xF0, 0x90, 0xF0, 0x90, 0x90] ++
  [0xE0, 0x90, 0xE0, 0x90, 0xE0] ++ [0xF0, 0x80, 0x80, 0x80, 0xF0] ++ [0xE0, 0x90, 0x90, 0x90, 0xE0] ++
  [0xF0, 0x80, 0xF0, 0x80, 0xF0] ++ [0xF0, 0x80, 0xF0, 0x80, 0x80]

/-- The family's GLYPH, the one `State.reset` has (PRESUMED; log 1). -/
def familyGlyph : List Byte := glyphsLow ++ glyphsHigh

/-- MEM_FILL of `State.reset` (DESIGN CHOICE; log 2). -/
def powerOnFill : Byte := 0

/-- What an address that memory does not list reads as: the contents of MEM in `State.reset` (R41). -/
def Memory.unlisted (a : Nat) : Byte :=
  if a < 80 then familyGlyph.getD a 0 else powerOnFill

/-- The byte at an address; at 4096 and above a value that nothing uses (DESIGN CHOICE; log 17). -/
def Memory.read : Memory → Nat → Byte
  | [], a => Memory.unlisted a
  | (k, b) :: m, a => if a = k then b else Memory.read m a

/-- Memory with one byte changed, in canonical form: writing what the unlisted address reads as removes the entry. -/
def Memory.write : Memory → Nat → Byte → Memory
  | [], a, b => if b = Memory.unlisted a then [] else [(a, b)]
  | (k, c) :: m, a, b =>
    if a < k then
      if b = Memory.unlisted a then (k, c) :: m else (a, b) :: (k, c) :: m
    else if a = k then
      if b = Memory.unlisted a then m else (a, b) :: m
    else (k, c) :: Memory.write m a b

/-- The canonical form: addresses strictly rising, each below 4096, and no entry equal to what its address reads as unlisted. -/
abbrev Memory.wf (m : Memory) : Prop :=
  m.Pairwise (fun c d => c.1 < d.1) ∧ ∀ c ∈ m, c.1 < 4096 ∧ c.2 ≠ Memory.unlisted c.1

/-- The canonical memory with given contents at 0..4095. -/
@[irreducible] def Memory.ofContents (f : Nat → Byte) : Memory :=
  (List.range 4096).filterMap fun a => if f a = Memory.unlisted a then none else some (a, f a)

/-- Bytes stored one after another at rising addresses, the first at `a` (R58, R145). -/
def Memory.store (m : Memory) (a : Nat) : List Byte → Memory
  | [] => m
  | b :: bs => Memory.store (m.write a b) (a + 1) bs

end Sys2Proof.Machine
end

