-- ==== Sys2Proof/Machine/Ops.lean ====
section
/-! DEFINITION. Machine/Ops.lean: the named operations over registers, pc, stack, memory and framebuffer, the timer tick, and
taking a fault (spec/60_exceptions.md R181). There is no return from a fault and no handler (R187, R188): the only way out is
reset, `State.resetWith` of Machine/Transactions.lean. -/

namespace Sys2Proof.Machine

/-- V[x] (R8, R21). -/
def State.getV (s : State) (x : Reg) : Byte := s.v[x]

/-- V[x] <- b (R8, R21). -/
def State.setV (s : State) (x : Reg) (b : Byte) : State := { s with v := s.v.set x b }

/-- I <- w (R23). -/
def State.setI (s : State) (w : Word) : State := { s with I := w }

/-- pc <- target (R8, R24). -/
def State.jump (s : State) (target : Word) : State := { s with pc := target }

/-- pc <- pc + 2, the sequential kind of R93; the sum is mod 65536 (R24). -/
def State.advance (s : State) : State := { s with pc := s.pc + 2 }

/-- The skip kind of R93: pc <- pc + 4 if the condition holds, else pc + 2. -/
def State.skipIf (s : State) (c : Bool) : State := { s with pc := s.pc + (if c then 4 else 2) }

/-- STACK[SP] <- ret, then SP <- SP + 1 (R103), where a slot is free. -/
def State.push (s : State) (ret : Word) (free : s.sp.val < 16) : State :=
  { s with stack := s.stack.set s.sp.val ret free, sp := ⟨s.sp.val + 1, by omega⟩ }

/-- STACK[SP - 1], what 00EE pops (R101). -/
def State.top (s : State) : Word := s.stack[s.sp.val - 1]'(by omega)

/-- SP <- SP - 1; the popped slot keeps its value (R101). -/
def State.drop (s : State) : State := { s with sp := ⟨s.sp.val - 1, by omega⟩ }

/-- DT <- b (R27). -/
def State.setDt (s : State) (b : Byte) : State := { s with dt := b }

/-- ST <- b (R28). -/
def State.setSt (s : State) (b : Byte) : State := { s with st := b }

/-- MEM[a] (R50). -/
def State.byte (s : State) (a : Nat) : Byte := s.mem.read a

/-- Bytes stored at rising addresses from `a`, all checks having been made (R55, R140). -/
def State.store (s : State) (a : Nat) (bytes : List Byte) : State := { s with mem := s.mem.store a bytes }

/-- The seven causes of R180. -/
inductive Cause where
  | fetchOutOfRange
  | dataOutOfRange
  | glyphWrite
  | stackOverflow
  | stackUnderflow
  | drawOutOfRange
  | keyIndexOutOfRange
  deriving DecidableEq, Repr

/-- The code column of R180. -/
def Cause.code : Cause → BitVec 3
  | .fetchOutOfRange => 1
  | .dataOutOfRange => 2
  | .glyphWrite => 3
  | .stackOverflow => 4
  | .stackUnderflow => 5
  | .drawOutOfRange => 6
  | .keyIndexOutOfRange => 7

/-- `raise <Fault>(info)` of R181: the record is written and nothing else changes; `op` is the instruction word, 0 for
FetchOutOfRange; the callers give the encoding of the instruction they decoded (DEDUCED; log 10). -/
def State.raise (s : State) (c : Cause) (op : Word) (info : Nat) : State :=
  { s with fault := ⟨true, c.code, s.pc, op, BitVec.ofNat 17 info⟩ }

/-- The store checks of R55 for `n` bytes from `a`, ascending; the first that fails names the cause and the address. -/
def checkStores (a : Nat) : Nat → Option (Cause × Nat)
  | 0 => none
  | n + 1 =>
    if a > 4095 then some (.dataOutOfRange, a)
    else if a < 80 then some (.glyphWrite, a)
    else checkStores (a + 1) n

/-- The read checks of R54 for `n` bytes from `a`, ascending; the first that fails gives the address. -/
def checkLoads (a : Nat) : Nat → Option Nat
  | 0 => none
  | n + 1 => if a > 4095 then some a else checkLoads (a + 1) n

/-- V[0], ..., V[x], what FX55 stores (R145). -/
def State.regsUpTo (s : State) (x : Reg) : List Byte := s.v.toList.take (x.val + 1)

/-- V[k] <- MEM[a + k] for k = 0, ..., n - 1, ascending (R146). -/
def State.loadRegs (s : State) (a : Nat) : Nat → State
  | 0 => s
  | n + 1 =>
    let t := s.loadRegs a n
    { t with v := t.v.setIfInBounds n (t.byte (a + n)) }

/-- FB[p] (R29). -/
def Framebuffer.pixel (f : Framebuffer) (p : Nat) : Bool :=
  (f[p / 64]?.getD 0).getLsbD (p % 64)

/-- FB[p] <- FB[p] ^ 1 (R152). -/
def Framebuffer.flip (f : Framebuffer) (p : Nat) : Framebuffer :=
  f.setIfInBounds (p / 64) (f[p / 64]?.getD 0 ^^^ 1#64 <<< (p % 64))

/-- The targets of the set bits of `n` sprite rows from address `a`, drawn at column `x0` and row `y0`, as (column, row) in
the scan order of R152: rows ascending and within a row bit 7 first. The coordinates are natural numbers (R153). -/
def spriteTargets (m : Memory) (a x0 y0 n : Nat) : List (Nat × Nat) :=
  (List.range n).flatMap fun j => (List.range 8).filterMap fun i =>
    if (m.read (a + j)).getLsbD (7 - i) then some (x0 + i, y0 + j) else none

/-- A target outside the 64 x 32 grid, tested per coordinate (R153). -/
def offGrid (t : Nat × Nat) : Bool := t.1 > 63 || t.2 > 31

/-- `(x0 + i) + 64 * (y0 + j)` of R152: the index of a pixel. -/
def pixelIndex (t : Nat × Nat) : Nat := t.1 + 64 * t.2

/-- One set sprite bit (R152): a pixel that is 1 is a collision; the pixel is toggled. The pair is FB and the collision. -/
def toggle (acc : Framebuffer × Bool) (t : Nat × Nat) : Framebuffer × Bool :=
  (acc.1.flip (pixelIndex t), acc.2 || acc.1.pixel (pixelIndex t))

/-- The effect of a sprite's set bits, in scan order, from no collision (R152). -/
def drawTargets (f : Framebuffer) (ts : List (Nat × Nat)) : Framebuffer × Bool := ts.foldl toggle (f, false)

/-- The random byte of a CXNN cycle and the state after it was taken (R38, R174; log 4): the next byte the environment laid
ready, or else a free value. -/
def State.drawRandom (s : State) : Byte × State :=
  match s.rndSupply with
  | b :: rest => (b, { s with rndSupply := rest })
  | [] => (Config.freeRandomByte s.rndDraws, { s with rndDraws := s.rndDraws + 1 })

/-- One timer's part of the tick (R95): minus 1 while it is above 0. -/
def countDown (b : Byte) : Byte := if b = 0 then 0 else b - 1

/-- Tick() of R95. -/
def State.tick (s : State) : State := { s with dt := countDown s.dt, st := countDown s.st }

end Sys2Proof.Machine
end

