-- ==== Sys2Proof/Machine/Flags.lean ====
section
/-! DEFINITION. Machine/Flags.lean: every computation of VF as a flag (spec/10_state.md R22, spec/43_load_alu.md R132 (7)).
DXYN's collision is computed with the drawing, `drawTargets` of Machine/Ops.lean. -/

namespace Sys2Proof.Machine

/-- 8XY4: 1 if V[X] + V[Y] > 255, the sum a 9-bit natural number (R127). -/
def carryFlag (a b : Byte) : Byte := flagByte (a.toNat + b.toNat > 255)

/-- 8XY5: 1 if V[X] > V[Y], strictly (R128). -/
def greaterFlag (a b : Byte) : Byte := flagByte (a.toNat > b.toNat)

/-- 8XY7: 1 if V[X] < V[Y], strictly (R130). -/
def lessFlag (a b : Byte) : Byte := flagByte (a.toNat < b.toNat)

/-- 8XY6: V[X][0] before the shift (R129). -/
def lowBitFlag (a : Byte) : Byte := flagByte (a.getLsbD 0)

/-- 8XYE: V[X][7] before the shift (R131). -/
def highBitFlag (a : Byte) : Byte := flagByte (a.getLsbD 7)

/-- FX1E: 1 if V[X] + I > 65535 (R142). -/
def indexOverflowFlag (a : Byte) (i : Word) : Byte := flagByte (a.toNat + i.toNat > 65535)

/-- DXYN: 1 if a toggled pixel was 1 (R152). -/
def collisionFlag (hit : Bool) : Byte := flagByte hit

end Sys2Proof.Machine
end

