-- ==== Sys2Proof/Machine/Operands.lean ====
section
/-! DEFINITION. Machine/Operands.lean: the operand forms of the instruction set (spec/30_encoding.md R73, spec/20_memory.md R53,
spec/44_index_memory.md R140): what a field or register contributes to an address, a target or an index. -/

namespace Sys2Proof.Machine

/-- The base of every I-relative access: I as a natural number, to which k is added without any wrap (R53). -/
def State.base (s : State) : Nat := s.I.toNat

/-- The address of FX29: V[X] itself (R143). -/
def State.romAddress (s : State) (x : Reg) : Nat := (s.getV x).toNat

/-- NNN as a value of pc or I (R73). -/
def target (nnn : Addr) : Word := zext16 nnn

/-- The target of BNNN: zext_16(V[0]) + zext_16(NNN) (R104). -/
def State.targetV0 (s : State) (nnn : Addr) : Word := zext16 (s.getV 0) + zext16 nnn

/-- The return address of 2NNN: pc + 2 mod 65536 (R103). -/
def State.returnAddress (s : State) : Word := s.pc + 2

/-- The number of registers FX55 and FX65 move: X + 1 (R145, R146). -/
def regCount (x : Reg) : Nat := x.val + 1

/-- The key that V[X] names (R161, R162): the whole byte, not masked. -/
def State.keyIndex (s : State) (x : Reg) : Nat := (s.getV x).toNat

/-- KEYS[k] (R31). -/
def State.keyDown (s : State) (k : Nat) : Bool := s.keys.getLsbD k

/-- The three digits FX33 stores: hundreds, tens, ones (R144). -/
def bcdDigits (b : Byte) : List Byte := [b / 100, b / 10 % 10, b % 10]

end Sys2Proof.Machine
end

