-- ==== Sys2Proof/Machine/Display.lean ====
section
/-! DEFINITION. Machine/Display.lean: the framebuffer instructions (spec/45_display.md R150 to R154). -/

namespace Sys2Proof.Machine

/-- 00E0, CLS (R151): every pixel 0; neither VF nor DIRTY is written. -/
def execCls (s : State) : Result := .next { s with fb := Vector.replicate 32 0 }.advance

/-- The targets of a DXYN in a state: N rows from I at (V[X], V[Y]), both sampled before VF is cleared (R152). -/
def State.sprite (s : State) (x y : Reg) (n : Fin 16) : List (Nat × Nat) :=
  spriteTargets s.mem s.base (s.getV x).toNat (s.getV y).toNat n.val

/-- DXYN, DRW (R152, R153): all N sprite addresses are checked first, then all set bits; then VF, FB and DIRTY are
written, VF once (DEDUCED; log 14). -/
def execDrw (x y : Reg) (n : Fin 16) (s : State) : Result :=
  match checkLoads s.base n.val with
  | some a => .next (s.raise .dataOutOfRange (encode (.drw x y n)) a)
  | none =>
    match (s.sprite x y n).find? offGrid with
    | some t => .next (s.raise .drawOutOfRange (encode (.drw x y n)) (pixelIndex t))
    | none =>
      let d := drawTargets s.fb (s.sprite x y n)
      .next { s.setV vf (collisionFlag d.2) with fb := d.1, dirty := true }.advance

end Sys2Proof.Machine
end

