-- ==== Sys2Proof/Machine/Flow.lean ====
section
/-! DEFINITION. Machine/Flow.lean: control transfer (spec/41_flow.md R100 to R104). The target is taken as it is, unchecked and
unaligned, and no increment follows (R100). -/

namespace Sys2Proof.Machine

/-- 00EE, RET (R101): StackUnderflow when SP = 0; else SP <- SP - 1, pc <- STACK[SP]. -/
def execRet (s : State) : Result :=
  if s.sp.val = 0 then .next (s.raise .stackUnderflow (encode .ret) 0)
  else .next (s.drop.jump s.top)

/-- 1NNN, JP (R102). -/
def execJp (nnn : Addr) (s : State) : Result := .next (s.jump (target nnn))

/-- 2NNN, CALL (R103): StackOverflow when all 16 slots are used; else the return address is stored at STACK[SP] and SP
counts up (the order of 90_conflicts.md C1). -/
def execCall (nnn : Addr) (s : State) : Result :=
  if free : s.sp.val < 16 then .next ((s.push s.returnAddress free).jump (target nnn))
  else .next (s.raise .stackOverflow (encode (.call nnn)) 16)

/-- BNNN, JP_V0 (R104): always V[0]; the sum is not reduced mod 4096. -/
def execJpV0 (nnn : Addr) (s : State) : Result := .next (s.jump (s.targetV0 nnn))

end Sys2Proof.Machine
end

