-- ==== Sys2Proof/Machine/IndexMemory.lean ====
section
/-! DEFINITION. Machine/IndexMemory.lean: the address register and memory transfers (spec/44_index_memory.md R140 to R146). All
checks come before all accesses (R140, R181); I is never changed by a transfer. -/

namespace Sys2Proof.Machine

/-- ANNN, LD_I (R141). -/
def execLdI (nnn : Addr) (s : State) : Result := .next (s.setI (target nnn)).advance

/-- FX1E, ADD_I (R142): the 16-bit overflow to VF, then I + V[X] with V[X] read again. -/
def execAddI (x : Reg) (s : State) : Result :=
  let t := s.setV vf (indexOverflowFlag (s.getV x) s.I)
  .next (t.setI (t.I + zext16 (t.getV x))).advance

/-- FX29, LD_F (R143): I <- the BYTE at address V[X], as the source writes it. -/
def execLdF (x : Reg) (s : State) : Result := .next (s.setI (zext16 (s.byte (s.romAddress x)))).advance

/-- FX33, BCD (R144). -/
def execBcd (x : Reg) (s : State) : Result :=
  match checkStores s.base 3 with
  | some (c, a) => .next (s.raise c (encode (.bcd x)) a)
  | none => .next (s.store s.base (bcdDigits (s.getV x))).advance

/-- FX55, ST_REGS (R145). -/
def execStRegs (x : Reg) (s : State) : Result :=
  match checkStores s.base (regCount x) with
  | some (c, a) => .next (s.raise c (encode (.stRegs x)) a)
  | none => .next (s.store s.base (s.regsUpTo x)).advance

/-- FX65, LD_REGS (R146). -/
def execLdRegs (x : Reg) (s : State) : Result :=
  match checkLoads s.base (regCount x) with
  | some a => .next (s.raise .dataOutOfRange (encode (.ldRegs x)) a)
  | none => .next (s.loadRegs s.base (regCount x)).advance

end Sys2Proof.Machine
end

