-- ==== Sys2Proof/Machine/Keypad.lean ====
section
/-! DEFINITION. Machine/Keypad.lean: the keypad instructions (spec/46_keypad.md R160 to R164). SKP and SKNP read the snapshot
KEYS; LD_VX_K takes the host's answer to the key query and does not read KEYS (R160). -/

namespace Sys2Proof.Machine

/-- EX9E, SKP (R161). -/
def execSkp (x : Reg) (s : State) : Result :=
  if s.keyIndex x > 15 then .next (s.raise .keyIndexOutOfRange (encode (.skp x)) (s.keyIndex x))
  else .next (s.skipIf (s.keyDown (s.keyIndex x)))

/-- EXA1, SKNP (R162). -/
def execSknp (x : Reg) (s : State) : Result :=
  if s.keyIndex x > 15 then .next (s.raise .keyIndexOutOfRange (encode (.sknp x)) (s.keyIndex x))
  else .next (s.skipIf (!s.keyDown (s.keyIndex x)))

/-- FX0A, LD_VX_K (R163): with an answer k of the host, V[X] <- k; with none, the cycle has not ended and the state is
unchanged (R97 (c); log 5). -/
def execLdVxK (x : Reg) (s : State) : Result :=
  match s.keyAnswers with
  | [] => .next s
  | k :: rest => .next ({ s with keyAnswers := rest }.setV x (BitVec.ofNat 8 k.val)).advance

end Sys2Proof.Machine
end

