-- ==== Sys2Proof/Machine/LoadAlu.lean ====
section
/-! DEFINITION. Machine/LoadAlu.lean: register load and arithmetic (spec/43_load_alu.md R120 to R132). The instructions that write
VF as a flag write it first, and compute the result from the registers as they then are (R9, R120): this shows for X = 15
or Y = 15. -/

namespace Sys2Proof.Machine

/-- 6XNN, LD_IMM (R121). -/
def execLdImm (x : Reg) (nn : Byte) (s : State) : Result := .next (s.setV x nn).advance

/-- 7XNN, ADD_IMM (R122): wraps mod 256, no flag. -/
def execAddImm (x : Reg) (nn : Byte) (s : State) : Result := .next (s.setV x (s.getV x + nn)).advance

/-- 8XY0, LD_REG (R123). -/
def execLdReg (x y : Reg) (s : State) : Result := .next (s.setV x (s.getV y)).advance

/-- 8XY1, OR (R124). -/
def execOrReg (x y : Reg) (s : State) : Result := .next (s.setV x (s.getV x ||| s.getV y)).advance

/-- 8XY2, AND (R125). -/
def execAndReg (x y : Reg) (s : State) : Result := .next (s.setV x (s.getV x &&& s.getV y)).advance

/-- 8XY3, XOR (R126). -/
def execXorReg (x y : Reg) (s : State) : Result := .next (s.setV x (s.getV x ^^^ s.getV y)).advance

/-- 8XY4, ADD_REG (R127): the carry to VF, then the sum of the registers as they then are. -/
def execAddReg (x y : Reg) (s : State) : Result :=
  let t := s.setV vf (carryFlag (s.getV x) (s.getV y))
  .next (t.setV x (t.getV x + t.getV y)).advance

/-- 8XY5, SUB (R128): strict "greater" to VF, then the difference V[X] - V[Y]. -/
def execSub (x y : Reg) (s : State) : Result :=
  let t := s.setV vf (greaterFlag (s.getV x) (s.getV y))
  .next (t.setV x (t.getV x - t.getV y)).advance

/-- 8XY6, SHR (R129): the low bit to VF, then a logical shift right by one; Y is ignored. -/
def execShr (x _y : Reg) (s : State) : Result :=
  let t := s.setV vf (lowBitFlag (s.getV x))
  .next (t.setV x (t.getV x >>> 1)).advance

/-- 8XY7, SUBN (R130): strict "less" to VF, then the difference V[Y] - V[X]. -/
def execSubn (x y : Reg) (s : State) : Result :=
  let t := s.setV vf (lessFlag (s.getV x) (s.getV y))
  .next (t.setV x (t.getV y - t.getV x)).advance

/-- 8XYE, SHL (R131): the high bit to VF, then a shift left by one; Y is ignored. -/
def execShl (x _y : Reg) (s : State) : Result :=
  let t := s.setV vf (highBitFlag (s.getV x))
  .next (t.setV x (t.getV x <<< 1)).advance

end Sys2Proof.Machine
end

