-- ==== Sys2Proof/Machine/Skip.lean ====
section
/-! DEFINITION. Machine/Skip.lean: conditional skips on registers (spec/42_skip.md R110 to R114). Whole bytes are compared,
unsigned; nothing but pc is written. -/

namespace Sys2Proof.Machine

/-- 3XNN, SE_IMM (R111). -/
def execSeImm (x : Reg) (nn : Byte) (s : State) : Result := .next (s.skipIf (s.getV x == nn))

/-- 4XNN, SNE_IMM (R112). -/
def execSneImm (x : Reg) (nn : Byte) (s : State) : Result := .next (s.skipIf (s.getV x != nn))

/-- 5XY0, SE_REG (R113). -/
def execSeReg (x y : Reg) (s : State) : Result := .next (s.skipIf (s.getV x == s.getV y))

/-- 9XY0, SNE_REG (R114). -/
def execSneReg (x y : Reg) (s : State) : Result := .next (s.skipIf (s.getV x != s.getV y))

end Sys2Proof.Machine
end

