-- ==== Sys2Proof/Machine/TimerRandom.lean ====
section
/-! DEFINITION. Machine/TimerRandom.lean: timer access and the random byte (spec/47_timers_random.md R170 to R174). The tick that
follows in the same cycle is the cycle's, not the instruction's (R90, R95). -/

namespace Sys2Proof.Machine

/-- FX07, LD_VX_DT (R171): DT before this cycle's tick. -/
def execLdVxDt (x : Reg) (s : State) : Result := .next (s.setV x s.dt).advance

/-- FX15, LD_DT_VX (R172). -/
def execLdDtVx (x : Reg) (s : State) : Result := .next (s.setDt (s.getV x)).advance

/-- FX18, LD_ST_VX (R173). -/
def execLdStVx (x : Reg) (s : State) : Result := .next (s.setSt (s.getV x)).advance

/-- CXNN, RND (R174): V[X] <- rnd AND NN. -/
def execRnd (x : Reg) (nn : Byte) (s : State) : Result :=
  .next (s.drawRandom.2.setV x (s.drawRandom.1 &&& nn)).advance

end Sys2Proof.Machine
end

