-- ==== Sys2Proof/Machine/Cycle.lean ====
section
/-! DEFINITION. Machine/Cycle.lean: the cycle of spec/40_cycle_and_dispatch.md (R90 to R97): fetch, decode, execute, tick, how a
cycle ends, and the observations it emits (spec/10_state.md R39), which change no state (log 7). -/

namespace Sys2Proof.Machine

/-- MemRead(pc, 2): big-endian (R54, R56, R91); none when pc > 4094. -/
def State.fetch (s : State) : Option Word :=
  if s.pc.toNat > 4094 then none else some (s.byte s.pc.toNat ++ s.byte (s.pc.toNat + 1))

/-- The outputs of a cycle (R39). -/
inductive Observation where
  | unknownOpcode (pc op : Word)
  | dtEdge
  | stEdge
  | fault (cause : BitVec 3) (fpc fop : Word) (finfo : BitVec 17)
  deriving DecidableEq, Repr

/-- The edges the tick of a state emits: a timer that is 1 becomes 0 (R39, R95). -/
def State.tickEdges (s : State) : List Observation :=
  (if s.dt = 1 then [.dtEdge] else []) ++ (if s.st = 1 then [.stEdge] else [])

/-- The observation of the cycle that writes the FAULT record (R39 (d), R181 (2)). -/
def State.faultSeen (s : State) : Observation := .fault s.fault.cause s.fault.fpc s.fault.fop s.fault.finfo

/-- FX0A without an answer of the host: the one way a cycle does not end (R97 (c)). "No other opcode suspends." -/
def awaitsKey (i : Instr) (s : State) : Bool :=
  match i with
  | .ldVxK _ => s.keyAnswers.isEmpty
  | _ => false

/-- The end of a cycle whose instruction took `s` to `t` (R97): faulted, still waiting, or completed with the tick. -/
def conclude (i : Instr) (s t : State) : State × List Observation :=
  if t.fault.valid then (t, [t.faultSeen])
  else if awaitsKey i s then (t, [])
  else (t.tick, t.tickEdges)

/-- UNKNOWN (R96), then the tick. -/
def unknownCycle (s : State) (op : Word) : State × List Observation :=
  (s.advance.tick, .unknownOpcode s.pc op :: s.advance.tickEdges)

/-- The cycle of a fetch that is out of range (R56, R91): fop = 0, finfo = pc. -/
def fetchFault (s : State) : State × List Observation :=
  let t := s.raise .fetchOutOfRange 0 s.pc.toNat
  (t, [t.faultSeen])

/-- Execute and the end of the cycle, for a decoded instruction. -/
def instrCycle (i : Instr) (s : State) : Result × List Observation :=
  match exec i s with
  | .next t => (.next (conclude i s t).1, (conclude i s t).2)
  | .fault f => (.fault f, [])
  | .refused r => (.refused r, [])

/-- Cycle() of R90: the state after it, and what it emits. A halted core does nothing (R34, R97, R181 (3)). -/
def cycle (s : State) : Result × List Observation :=
  if s.fault.valid then (.next s, [])
  else match s.fetch with
    | none => (.next (fetchFault s).1, (fetchFault s).2)
    | some op => match decode op with
      | .ok i => instrCycle i s
      | .error _ => (.next (unknownCycle s op).1, (unknownCycle s op).2)

/-- What the cycle requested in a state emits to the host (R39). -/
def observations (s : State) : List Observation := (cycle s).2

/-- A word of `nbits` bits as spec/opcode_table.json numbers them, laid at the fetch address in the order of fetch (R56);
and, only where the fetch needs it, a pc that can be fetched from and a core that is not halted. -/
def placeAtFetch (s : State) (nbits w : Nat) : State :=
  let t : State := if s.pc.toNat > 4094 then { s with pc := 0x200 } else s
  { t with
    mem := t.mem.store t.pc.toNat (wordBytes (BitVec.ofNat 16 (w % 2 ^ nbits))),
    fault := if t.fault.valid then FaultRecord.none else t.fault }

end Sys2Proof.Machine
end

