-- ==== Sys2Proof/Machine/Step.lean ====
section
/-! DEFINITION. Machine/Step.lean: one step is one cycle request (spec/10_state.md R34). A program is loaded from outside
(spec/70_reset_and_hazards.md R204, R205; log 8); `withFetchWord` stands for that load. -/

namespace Sys2Proof.Machine

/-- One cycle request: the state when the request returns or, for an FX0A not yet answered, the unchanged state of a cycle
that must be offered again (R90, R97). -/
def step (s : State) : Host.Outcome State Fault Refusal := (cycle s).1

/-- The state with an instruction word stored where the next fetch reads. -/
def State.withFetchWord (s : State) (nbits w : Nat) : State := placeAtFetch s nbits w

end Sys2Proof.Machine
end

