-- ==== Sys2Proof/Assembler.lean ====
section
/-! DEFINITION. Assembler.lean: the assembler of spec/30_encoding.md R81, R82: a program as a term (instruction lines, words
written in hexadecimal, `DB` and `label:`), the image of one, and the text form of one. There are no pseudo-instructions.
What R81 leaves open of the text is log 15. -/

namespace Sys2Proof

/-- One line of a program (R81, R82). -/
inductive AsmItem where
  | line (l : AsmLine)
  /-- "The hexadecimal word is always an acceptable way to write an instruction" (R81). -/
  | word (n : Nat)
  | db (bytes : List Nat)
  | label (name : String)
  deriving DecidableEq, Repr

/-- The bytes an item takes in the image. -/
def AsmItem.size : AsmItem → Nat
  | .line _ => 2
  | .word _ => 2
  | .db bytes => bytes.length
  | .label _ => 0

/-- A label names the address of the next byte, 512 + its offset in the image (R82). -/
def asmLabels (at_ : Nat) : List AsmItem → List (String × Nat)
  | [] => []
  | .label name :: rest => (name, at_) :: asmLabels at_ rest
  | item :: rest => asmLabels (at_ + item.size) rest

/-- The literal bytes of a `DB` (R82); of none, none (DESIGN CHOICE; log 15). -/
def asmDb : List Nat → Except AsmError (List Byte)
  | [] => .ok []
  | n :: rest => do
    let b ← asmNum 8 n
    let bs ← asmDb rest
    return b :: bs

/-- The bytes of one item. -/
def AsmItem.bytes (labels : List (String × Nat)) : AsmItem → Except AsmError (List Byte)
  | .line l => encodeBytes <$> l.toInstr labels
  | .word n => wordBytes <$> asmNum 16 n
  | .db bytes => asmDb bytes
  | .label _ => .ok []

/-- The bytes of a list of items, in order. -/
def asmBytes (labels : List (String × Nat)) : List AsmItem → Except AsmError (List Byte)
  | [] => .ok []
  | item :: rest => do
    let b ← item.bytes labels
    let bs ← asmBytes labels rest
    return b ++ bs

/-- The image of a program, to be loaded at 512 (R82, R205). -/
def assemble (program : List AsmItem) : Except AsmError (List Byte) :=
  asmBytes (asmLabels 512 program) program

/-! ### Program text -/

/-- The words of a line: its characters cut at blanks and commas, both of which are dropped. -/
def asmWords (line : List Char) : List (List Char) :=
  let cut := line.foldr (fun c acc =>
    if c == ' ' || c == ',' then [] :: acc
    else match acc with
      | w :: rest => (c :: w) :: rest
      | [] => [[c]]) [[]]
  cut.filter (fun w => !w.isEmpty)

/-- The value of a digit in a base of at most 16. -/
def asmDigit (base : Nat) (c : Char) : Option Nat :=
  let d := if '0' ≤ c ∧ c ≤ '9' then c.toNat - '0'.toNat
    else if 'A' ≤ c ∧ c ≤ 'F' then c.toNat - 'A'.toNat + 10
    else if 'a' ≤ c ∧ c ≤ 'f' then c.toNat - 'a'.toNat + 10
    else 16
  if d < base then some d else none

/-- The digits of a numeral, of which there must be one at least. -/
def asmDigits (base : Nat) : List Char → Option Nat
  | [] => none
  | cs => cs.foldlM (fun n c => (fun d => n * base + d) <$> asmDigit base c) 0

/-- A numeral, "hexadecimal with `0x`" and decimal without (R81). -/
def asmNumeral : List Char → Option Nat
  | '0' :: 'x' :: cs => asmDigits 16 cs
  | cs => asmDigits 10 cs

/-- One operand (R81): a fixed token, a register, a numeral, or else a name. -/
def asmOperand (w : List Char) : Operand :=
  match w with
  | ['I'] => .I
  | ['D', 'T'] => .DT
  | ['S', 'T'] => .ST
  | ['K'] => .K
  | ['F'] => .F
  | ['B'] => .B
  | ['[', 'I', ']'] => .atI
  | ['V', d] => match asmDigit 16 d with
    | some n => .v n
    | none => .label (String.ofList w)
  | _ => match asmNumeral w with
    | some n => .num n
    | none => .label (String.ofList w)

/-- The first words of the assembler column, as written. -/
def asmKeywords : List (List Char × Keyword) :=
  [(['C', 'L', 'S'], .CLS), (['R', 'E', 'T'], .RET), (['J', 'P'], .JP), (['C', 'A', 'L', 'L'], .CALL), (['S', 'E'], .SE),
   (['S', 'N', 'E'], .SNE), (['L', 'D'], .LD), (['A', 'D', 'D'], .ADD), (['O', 'R'], .OR), (['A', 'N', 'D'], .AND),
   (['X', 'O', 'R'], .XOR), (['S', 'U', 'B'], .SUB), (['S', 'H', 'R'], .SHR), (['S', 'U', 'B', 'N'], .SUBN),
   (['S', 'H', 'L'], .SHL), (['R', 'N', 'D'], .RND), (['D', 'R', 'W'], .DRW), (['S', 'K', 'P'], .SKP),
   (['S', 'K', 'N', 'P'], .SKNP)]

/-- One line of text: nothing, `label:`, `DB b, b, ...`, a word written as a numeral, or an instruction (R81, R82). A `label:`
stands alone on its line: before anything else the line is an error; and a `DB` with no byte after it is accepted and places none (DESIGN CHOICE; log 15). -/
def asmItem (line : List Char) : Except AsmError (List AsmItem) :=
  match asmWords line with
  | [] => .ok []
  | ['D', 'B'] :: ws => match ws.mapM asmNumeral with
    | some ns => .ok [.db ns]
    | none => .error .noSuchForm
  | w :: ws => match asmKeywords.lookup w, ws, asmNumeral w with
    | some k, _, _ => .ok [.line ⟨k, ws.map asmOperand⟩]
    | none, [], some n => .ok [.word n]
    | none, [], none =>
      if w.getLast? = some ':' then .ok [.label (String.ofList w.dropLast)] else .error .noSuchForm
    | none, _ :: _, _ => .error .noSuchForm

/-- The lines of a text. -/
def asmLines (text : List Char) : List (List Char) :=
  text.foldr (fun c acc =>
    if c == '\n' then [] :: acc
    else match acc with
      | l :: rest => (c :: l) :: rest
      | [] => [[c]]) [[]]

/-- The items of a text, "one instruction per line" (R81). -/
def asmParse : List (List Char) → Except AsmError (List AsmItem)
  | [] => .ok []
  | l :: rest => do
    let i ← asmItem l
    let is ← asmParse rest
    return i ++ is

/-- The image of a program text (R81, R82). -/
def assembleText (text : List Char) : Except AsmError (List Byte) := do
  let program ← asmParse (asmLines text)
  assemble program

end Sys2Proof
end

