-- ==== Sys2Proof/Machine/Transactions.lean ====
section
/-! DEFINITION. Machine/Transactions.lean: what the host may do to the core besides requesting a cycle (spec/10_state.md R34 to
R40, spec/70_reset_and_hazards.md R200 to R206), each a function on State, and which of them may follow which (log 16). -/

namespace Sys2Proof.Machine

/-- Reset (R200, R41) for any GLYPH, MEM_FILL and KEYS. `State.reset` is one such state (log 1, 2, 3). -/
def State.resetWith (p : Params) (keys : BitVec 16) : State :=
  { State.reset with mem := Memory.ofContents p.resetByte, keys := keys }

/-- The parameters of `State.reset`: the family's glyph table and the fill zero (log 1, 2). -/
def familyParams : Params where
  glyph a := familyGlyph.getD a.val 0
  memFill _ := powerOnFill

/-- Reset in the middle of a run, also while halted or waiting (R201): nothing of the core's state is kept; the counter of the
free value goes on, so that no random byte is used twice (log 4). -/
def State.hostReset (s : State) (p : Params) (keys : BitVec 16) : State :=
  { State.resetWith p keys with rndDraws := s.rndDraws }

/-- Load (R205): MEM[512 + k] <- IMAGE[k]; an image longer than 3584 bytes is refused, and then no cycle runs (R206). -/
def State.load (s : State) (image : List Byte) : Option State :=
  if image.length ≤ 3584 then some (s.store 512 image) else none

/-- The key snapshot write (R35): all 16 bits at once. Whether the core takes it is `Transaction.apply`'s to say. -/
def State.writeKeys (s : State) (keys : BitVec 16) : State := { s with keys := keys }

/-- The framebuffer read (R36): the 2048 pixels in index order, and DIRTY. -/
def State.readScreen (s : State) : List Bool × Bool := ((List.range 2048).map s.fb.pixel, s.dirty)

/-- The dirty clear (R36): the host may write 0 and nothing else. -/
def State.clearDirty (s : State) : State := { s with dirty := false }

/-- The host answers a key query with index k (R37). -/
def State.answerKey (s : State) (k : Reg) : State := { s with keyAnswers := s.keyAnswers ++ [k] }

/-- The environment lays a byte ready for a CXNN (R38). -/
def State.supplyRandom (s : State) (b : Byte) : State := { s with rndSupply := s.rndSupply ++ [b] }

/-- Boot (R204): reset, then load, at most once, then cycles. None when the load is refused. -/
def boot (p : Params) (keys : BitVec 16) (image : List Byte) : Option State := (State.resetWith p keys).load image

/-- The transactions of a started machine (R34, R40). Load is not among them: it belongs to boot. -/
inductive Transaction where
  | requestCycle
  | writeKeys (keys : BitVec 16)
  | clearDirty
  | answerKey (k : Reg)
  | supplyRandom (b : Byte)
  deriving DecidableEq, Repr

/-- The effect of a transaction. On a halted core it has none: "once valid = 1 no cycle runs and nothing but reset changes any
state" (R33), which is taken to bind the writes of R35 and R36 too (DEDUCED; log 19); reset is `State.hostReset`. Between an
unanswered FX0A attempt and its retry KEYS and DIRTY may be written (DESIGN CHOICE; log 18). -/
def Transaction.apply (x : Transaction) (s : State) : Result :=
  if s.fault.valid then .next s
  else match x with
  | .requestCycle => step s
  | .writeKeys keys => .next (s.writeKeys keys)
  | .clearDirty => .next s.clearDirty
  | .answerKey k => .next (s.answerKey k)
  | .supplyRandom b => .next (s.supplyRandom b)

end Sys2Proof.Machine
end

