-- ==== Sys2Proof/Safety.lean ====
section
/-! DEFINITION. Safety.lean: the terms in which claims speak of runs: running and halted (spec/10_state.md R32), parked
(spec/70_reset_and_hazards.md R216), the states a machine of given parameters can reach (R40, R201, R204), the invariants, and
which parts of the state an instruction leaves alone. -/

namespace Sys2Proof.Machine

/-- FAULT.valid = 0 (R32). A safe run is one that stays running: a claim proves it and does not assume it (R181, R197). -/
abbrev State.running (s : State) : Prop := s.fault.valid = false

/-- FAULT.valid = 1 (R32). -/
abbrev State.halted (s : State) : Prop := s.fault.valid = true

/-- Parked at its own pc: the word there is the jump to itself (R216). -/
def State.parked (s : State) : Prop := s.running ∧ ∃ nnn : Addr, s.pc = target nnn ∧ s.fetch = some (encode (.jp nnn))

/-- The FX0A wait: the word at pc is FX0A and the host has not answered (R164, R197). -/
abbrev State.waiting (s : State) : Prop :=
  s.running ∧ s.keyAnswers = [] ∧ ∃ x : Reg, s.fetch = some (encode (.ldVxK x))

/-- `n` cycle requests, one after another with nothing of the host's between them, take `s` to `t` (R40, log 12). -/
def runs : Nat → State → State → Prop
  | 0, s, t => t = s
  | n + 1, s, t => ∃ u, step s = .next u ∧ runs n u t

/-- The states a machine with parameters `p` can be in: after boot, after any transaction, and after any later reset and
load (R34, R40, R201, R204). -/
inductive Reachable (p : Params) : State → Prop where
  | boot {keys : BitVec 16} {image : List Byte} {s : State} (h : boot p keys image = some s) : Reachable p s
  | transact {s t : State} (hs : Reachable p s) (x : Transaction) (h : x.apply s = .next t) : Reachable p t
  | reboot {s t : State} (hs : Reachable p s) {keys : BitVec 16} {image : List Byte}
      (h : (s.hostReset p keys).load image = some t) : Reachable p t

/-- MEM[0..79] holds GLYPH (R60). -/
def glyphIntact (glyph : Fin 80 → Byte) (s : State) : Prop := ∀ a : Fin 80, s.byte a.val = glyph a

/-- Every return address on the stack is at most 4096 (R101: "A popped value is never above 4096"). -/
def returnsInRange (s : State) : Prop := ∀ k : Fin 16, k.val < s.sp.val → (s.stack[k]).toNat ≤ 4096

/-- The FAULT record is as reset leaves it, or holds a cause of R180 and the unchanged pc (R33, R181). -/
def faultRecordSound (s : State) : Prop :=
  (s.fault.valid = false ∧ s.fault = FaultRecord.none) ∨
  (s.fault.valid = true ∧ (∃ c : Cause, s.fault.cause = c.code) ∧ s.fault.fpc = s.pc)

/-- The invariant that every step keeps. -/
structure Inv (s : State) : Prop where
  memCanonical : s.mem.wf
  returns : returnsInRange s
  faultRecord : faultRecordSound s

/-- The parts of the state, each register, pixel and byte of memory by itself. -/
inductive Part where
  | reg (r : Reg)
  | I
  | pc
  | slot (k : Fin 16)
  | SP
  | DT
  | ST
  | pixel (p : Fin 2048)
  | DIRTY
  | KEYS
  | FAULT
  | byte (a : Nat)
  | keyAnswers
  | random
  deriving DecidableEq, Repr

/-- A part reads the same in two states. -/
def Part.same (s t : State) : Part → Prop
  | .reg r => t.getV r = s.getV r
  | .I => t.I = s.I
  | .pc => t.pc = s.pc
  | .slot k => t.stack[k] = s.stack[k]
  | .SP => t.sp = s.sp
  | .DT => t.dt = s.dt
  | .ST => t.st = s.st
  | .pixel p => t.fb.pixel p.val = s.fb.pixel p.val
  | .DIRTY => t.dirty = s.dirty
  | .KEYS => t.keys = s.keys
  | .FAULT => t.fault = s.fault
  | .byte a => t.byte a = s.byte a
  | .keyAnswers => t.keyAnswers = s.keyAnswers
  | .random => t.rndSupply = s.rndSupply ∧ t.rndDraws = s.rndDraws

/-- The frame of an instruction: every part outside `changed` reads the same after as before. -/
def unchangedBut (changed : Part → Prop) (s t : State) : Prop := ∀ part : Part, ¬ changed part → part.same s t

end Sys2Proof.Machine
end

