-- ==== Sys2Proof/Certificates/Slice0/Obligations.lean ====
section
/-! DEFINITION. Certificates/Slice0/Obligations.lean: the statements for the provers, each with the rule of spec/ it formalises.
Instructions are stated by what reading the state after gives, with the frame: every other part of the state reads as before
(`unchangedBut` of Safety.lean, over each register, pixel and byte of memory by itself). -/

namespace Sys2Proof.Machine

/-- An instruction completes with `pc <- pc + 2` (R93 (a)) and changes, beside pc, only parts in `changed`; `post` holds. -/
def completesBy (i : Instr) (s : State) (changed : Part → Prop) (post : State → Prop) : Prop :=
  ∃ t, exec i s = .next t ∧ t.pc = s.pc + 2 ∧ unchangedBut (fun part => part = .pc ∨ changed part) s t ∧ post t

/-- An instruction takes the fault of code `code` with `info` (R181): only the record changes. -/
def takesFault (i : Instr) (s : State) (code : BitVec 3) (info : Nat) : Prop :=
  ∃ t, exec i s = .next t ∧ t.fault = ⟨true, code, s.pc, encode i, BitVec.ofNat 17 info⟩ ∧
    unchangedBut (fun part => part = .FAULT) s t

/-- The set bits of the sprite of DXYN: some row j < N and bit column i < 8 whose bit is 1 lands on (column, row) (R152). -/
def inSprite (s : State) (x y : Reg) (n : Fin 16) (column row : Nat) : Prop :=
  ∃ j < n.val, ∃ i < 8, (s.byte (s.base + j)).getLsbD (7 - i) = true ∧
    column = (s.getV x).toNat + i ∧ row = (s.getV y).toNat + j

/-- The causes an instruction can raise by itself, the table of R183. -/
def ownCauses : Instr → List Cause
  | .ret => [.stackUnderflow]
  | .call _ => [.stackOverflow]
  | .drw _ _ _ => [.dataOutOfRange, .drawOutOfRange]
  | .skp _ => [.keyIndexOutOfRange]
  | .sknp _ => [.keyIndexOutOfRange]
  | .bcd _ => [.dataOutOfRange, .glyphWrite]
  | .stRegs _ => [.dataOutOfRange, .glyphWrite]
  | .ldRegs _ => [.dataOutOfRange]
  | _ => []

/-- The registers an instruction may write: the writers of V[X] and of V[0..X] of R21, and those that write VF as a flag, R22. -/
def mayWriteReg : Instr → Reg → Prop
  | .ldImm x _, r | .addImm x _, r | .ldReg x _, r | .orReg x _, r | .andReg x _, r | .xorReg x _, r | .rnd x _, r
  | .ldVxDt x, r | .ldVxK x, r => r = x
  | .addReg x _, r | .sub x _, r | .shr x _, r | .subn x _, r | .shl x _, r => r = x ∨ r = vf
  | .addI _, r | .drw _ _ _, r => r = vf
  | .ldRegs x, r => r ≤ x
  | _, _ => False

/-- The operand `nnn` is a numeral that fits 12 bits (R81), or a label with such an address. R82 says what a label names; that it
may stand for `nnn` and for no other operand, and that a repeated label is its first place, is the model's choice (log 15). -/
def isAddress (labels : List (String × Nat)) : Operand → Prop
  | .num n => n < 4096
  | .label name => ∃ a < 4096, labels.lookup name = some a
  | _ => False

/-- The assembler column of R75 with the operand ranges of R81: `Vx` is V0 to VF, and `nnn`, `nn`, `n` fit 12, 8 and 4 bits; with
labels as `isAddress` takes them (log 15). -/
def lineInRange (labels : List (String × Nat)) : Keyword → List Operand → Prop
  | .CLS, [] | .RET, [] => True
  | .JP, [a] | .CALL, [a] | .LD, [.I, a] | .JP, [.v 0, a] => isAddress labels a
  | .SE, [.v x, .num n] | .SNE, [.v x, .num n] | .LD, [.v x, .num n] | .ADD, [.v x, .num n] | .RND, [.v x, .num n] =>
    x < 16 ∧ n < 256
  | .SE, [.v x, .v y] | .SNE, [.v x, .v y] | .LD, [.v x, .v y] | .OR, [.v x, .v y] | .AND, [.v x, .v y] | .XOR, [.v x, .v y]
  | .ADD, [.v x, .v y] | .SUB, [.v x, .v y] | .SHR, [.v x, .v y] | .SUBN, [.v x, .v y] | .SHL, [.v x, .v y] => x < 16 ∧ y < 16
  | .SHR, [.v x] | .SHL, [.v x] | .SKP, [.v x] | .SKNP, [.v x] | .LD, [.v x, .DT] | .LD, [.v x, .K] | .LD, [.DT, .v x]
  | .LD, [.ST, .v x] | .ADD, [.I, .v x] | .LD, [.F, .v x] | .LD, [.B, .v x] | .LD, [.atI, .v x] | .LD, [.v x, .atI] => x < 16
  | .DRW, [.v x, .v y, .num n] => x < 16 ∧ y < 16 ∧ n < 16
  | _, _ => False

/-- The table of R180 for the instruction at pc, with the priorities of R182: instruction `i` fails this check in `s`, with this
number to record. An access of the bytes at I, ..., I + m is out of range when I + m > 4095, and the first such address is
then I itself or 4096. -/
def instrRaises (s : State) : Instr → Cause → Nat → Prop
  | .ret, .stackUnderflow, n => s.sp.val = 0 ∧ n = 0
  | .call _, .stackOverflow, n => s.sp.val = 16 ∧ n = 16
  | .skp x, .keyIndexOutOfRange, n => 15 < (s.getV x).toNat ∧ n = (s.getV x).toNat
  | .sknp x, .keyIndexOutOfRange, n => 15 < (s.getV x).toNat ∧ n = (s.getV x).toNat
  | .bcd _, .dataOutOfRange, n => 4095 < s.base + 2 ∧ n = max s.base 4096
  | .bcd _, .glyphWrite, n => s.base < 80 ∧ n = s.base
  | .stRegs x, .dataOutOfRange, n => 4095 < s.base + x.val ∧ n = max s.base 4096
  | .stRegs _, .glyphWrite, n => s.base < 80 ∧ n = s.base
  | .ldRegs x, .dataOutOfRange, n => 4095 < s.base + x.val ∧ n = max s.base 4096
  | .drw _ _ k, .dataOutOfRange, n => 0 < k.val ∧ 4096 < s.base + k.val ∧ n = max s.base 4096
  | .drw x y k, .drawOutOfRange, n => s.base + k.val ≤ 4096 ∧ ∃ c r, inSprite s x y k c r ∧ (63 < c ∨ 31 < r) ∧ n = c + 64 * r ∧
      ∀ c' r', inSprite s x y k c' r' → (r' < r ∨ (r' = r ∧ c' < c)) → c' ≤ 63 ∧ r' ≤ 31
  | _, _, _ => False

/-- The table of R180 for a cycle: the fetch first (R182), then the checks of the instruction that was fetched. -/
def cycleRaises (s : State) (c : Cause) (n : Nat) : Prop :=
  (4094 < s.pc.toNat ∧ c = .fetchOutOfRange ∧ n = s.pc.toNat) ∨
  (s.pc.toNat ≤ 4094 ∧ ∃ i, decode (s.byte s.pc.toNat ++ s.byte (s.pc.toNat + 1)) = .ok i ∧ instrRaises s i c n)

end Sys2Proof.Machine

open Sys2Proof Sys2Proof.Machine

/-! ### Encoding -/

/-- R72, R74, R75: no bit of an encoding is dropped: decoding the word, or the bytes with anything after them, gives the
instruction back, for every instruction and every operand. -/
def Obligations.DecodeOfEncodeGivesTheInstruction : Prop :=
  (∀ i : Instr, decode (encode i) = .ok i) ∧
  ∀ (i : Instr) (rest : List Byte), decodeBytes (encodeBytes i ++ rest) = .ok (i, rest)

/-- R74, R75, R76: the word is determined by what it decodes to. -/
def Obligations.EncodeOfDecodeGivesTheWord : Prop :=
  ∀ (op : Word) (i : Instr), decode op = .ok i → encode i = op

/-- R76: no word matches two rows. -/
def Obligations.NoWordMatchesTwoRows : Prop :=
  ∀ (op : Word) (j k : Fin 34), opcodeTable[j].hits op = true → opcodeTable[k].hits op = true → j = k

/-- R77, R79: the words that are no instruction, family by family, the alias band among them; decoding rejects them by name. -/
def Obligations.UnknownWordsAreExactlyThoseListed : Prop :=
  ∀ op : Word, decode op = .error (.unknownOpcode op) ↔
    (op.extractLsb' 12 4 = 0x0 ∧ op ≠ 0x00E0 ∧ op ≠ 0x00EE) ∨
    (op.extractLsb' 12 4 = 0x5 ∧ op.extractLsb' 0 4 ≠ 0) ∨
    (op.extractLsb' 12 4 = 0x8 ∧ op.extractLsb' 0 4 ∈ [0x8, 0x9, 0xA, 0xB, 0xC, 0xD, 0xF]) ∨
    (op.extractLsb' 12 4 = 0x9 ∧ op.extractLsb' 0 4 ≠ 0) ∨
    (op.extractLsb' 12 4 = 0xE ∧ op.extractLsb' 0 8 ∉ [0x9E, 0xA1]) ∨
    (op.extractLsb' 12 4 = 0xF ∧ op.extractLsb' 0 8 ∉ [0x07, 0x0A, 0x15, 0x18, 0x1E, 0x29, 0x33, 0x55, 0x65])

/-- R75: words written out from the spec's patterns, one or more a family, decode to their instructions, and some words of
V-DEC that are no instruction do not. -/
def Obligations.WordsFromTheTableDecode : Prop :=
  decode 0x00E0 = .ok .cls ∧ decode 0x00EE = .ok .ret ∧ decode 0x1ABC = .ok (.jp 0xABC) ∧ decode 0x3A7F = .ok (.seImm 10 0x7F) ∧
  decode 0x5AB0 = .ok (.seReg 10 11) ∧ decode 0x8AB4 = .ok (.addReg 10 11) ∧ decode 0x8ABE = .ok (.shl 10 11) ∧
  decode 0xD12F = .ok (.drw 1 2 15) ∧ decode 0xEFA1 = .ok (.sknp 15) ∧ decode 0xF007 = .ok (.ldVxDt 0) ∧
  decode 0xFF65 = .ok (.ldRegs 15) ∧ decode 0xC50F = .ok (.rnd 5 0x0F) ∧ decode 0x01E0 = .error (.unknownOpcode 0x01E0) ∧
  decode 0x5AB1 = .error (.unknownOpcode 0x5AB1)

/-- R81: a line is accepted exactly if it is a form of the assembler column with every operand in range, for every form; any
other line is an error. Where a label may stand, and which place a repeated one means, is the model's choice (log 15). -/
def Obligations.AssemblerChecksOperandRanges : Prop :=
  ∀ (labels : List (String × Nat)) (k : Keyword) (operands : List Operand),
    AsmLine.wellFormed labels ⟨k, operands⟩ = true ↔ lineInRange labels k operands

/-! ### The cycle -/

/-- R90, R92, R97: where the two bytes at pc decode to an instruction, a running core's step is exec of it, with the tick
after it if it completed, and with nothing after it if it faulted or is an FX0A that still waits. -/
def Obligations.StepRunsTheDecodedInstruction : Prop :=
  ∀ (s t : State) (i : Instr), s.running → s.pc.toNat ≤ 4094 →
    decode (s.byte s.pc.toNat ++ s.byte (s.pc.toNat + 1)) = .ok i → exec i s = .next t →
    (t.halted → step s = .next t) ∧ (t.running → awaitsKey i s = true → step s = .next t) ∧
    (t.running → awaitsKey i s = false → step s = .next t.tick)

/-- R91: fetch is big-endian from memory as it is, changes nothing, and faults above 4094 with fop = 0. -/
def Obligations.FetchReadsTwoBytesOrFaults : Prop :=
  ∀ s : State,
    (s.pc.toNat ≤ 4094 → ∃ op, s.fetch = some op ∧ op.extractLsb' 8 8 = s.byte s.pc.toNat ∧
      op.extractLsb' 0 8 = s.byte (s.pc.toNat + 1)) ∧
    (4094 < s.pc.toNat → s.fetch = none ∧ (s.running → ∃ t, step s = .next t ∧
      t.fault = ⟨true, 1, s.pc, 0, BitVec.ofNat 17 s.pc.toNat⟩ ∧ unchangedBut (fun part => part = .FAULT) s t))

/-- R96: a word that is no instruction advances pc by 2, emits the observation and, beside it, only the edges of the tick that
follows; in which order is not said (log 7). -/
def Obligations.UnknownWordOnlyAdvances : Prop :=
  ∀ (s : State) (op : Word), s.running → s.fetch = some op → decode op = .error (.unknownOpcode op) →
    ∃ t, step s = .next t ∧ t.pc = s.pc + 2 ∧ t.dt.toNat = s.dt.toNat - 1 ∧ t.st.toNat = s.st.toNat - 1 ∧
      unchangedBut (fun part => part = .pc ∨ part = .DT ∨ part = .ST) s t ∧
      ∀ o, o ∈ observations s ↔ o = .unknownOpcode s.pc op ∨ (o = .dtEdge ∧ s.dt = 1) ∨ (o = .stEdge ∧ s.st = 1)

/-- R95: the tick after a completed instruction, UNKNOWN included, counts each timer down by one while above 0 and emits an edge
exactly for a timer that was 1 before it; there is no tick in a faulted or waiting cycle, nor where the fetch faults. -/
def Obligations.TickFollowsEveryCompletedInstruction : Prop :=
  (∀ (s t : State) (op : Word) (i : Instr), s.running → s.fetch = some op → decode op = .ok i → exec i s = .next t →
    (t.halted → step s = .next t ∧ observations s = [t.faultSeen]) ∧
    (t.running → s.waiting → step s = .next s ∧ observations s = []) ∧
    (t.running → ¬ s.waiting → ∃ u, step s = .next u ∧ u.dt.toNat = t.dt.toNat - 1 ∧ u.st.toNat = t.st.toNat - 1 ∧
      unchangedBut (fun part => part = .DT ∨ part = .ST) t u ∧
      (.dtEdge ∈ observations s ↔ t.dt = 1) ∧ (.stEdge ∈ observations s ↔ t.st = 1))) ∧
  (∀ (s : State) (op : Word) (r : DecodeReject), s.running → s.fetch = some op → decode op = .error r →
    ∃ u, step s = .next u ∧ u.dt.toNat = s.dt.toNat - 1 ∧ u.st.toNat = s.st.toNat - 1 ∧
      (.dtEdge ∈ observations s ↔ s.dt = 1) ∧ (.stEdge ∈ observations s ↔ s.st = 1)) ∧
  ∀ s : State, s.running → s.fetch = none →
    ∃ u, step s = .next u ∧ u.halted ∧ u.dt = s.dt ∧ u.st = s.st ∧ observations s = [u.faultSeen]

/-- R97: a cycle of a running core ends in exactly one of three ways: it waits (state unchanged), it faults (nothing but the
record changed, and later requests do nothing), or it completes (the instruction or UNKNOWN, then the tick, the record untouched). -/
def Obligations.CycleEndsInOneOfThreeWays : Prop :=
  ∀ s : State, s.running → ∃ t, step s = .next t ∧
    ((s.waiting ∧ t = s) ∨
     (¬ s.waiting ∧ t.halted ∧ unchangedBut (fun part => part = .FAULT) s t ∧ step t = .next t) ∨
     (¬ s.waiting ∧ t.fault = s.fault ∧ ∃ op u, s.fetch = some op ∧ t = u.tick ∧
       ((∃ i, decode op = .ok i ∧ exec i s = .next u) ∨ (decode op = .error (.unknownOpcode op) ∧ u = s.advance))))

/-- R93: the pc rule: what pc is after each kind of instruction that does not fault, sequential, skip or transfer, and after
UNKNOWN. -/
def Obligations.PcAdvancesByTwoUnlessSkipOrTransfer : Prop :=
  (∀ (s : State) (op : Word) (r : DecodeReject), s.running → s.fetch = some op → decode op = .error r →
    ∃ t, step s = .next t ∧ t.pc = s.pc + 2) ∧
  ∀ (i : Instr) (s t : State), s.running → exec i s = .next t → t.running → ¬ awaitsKey i s →
    match i with
    | .ret => s.sp.val ≠ 0 ∧ t.pc = s.stack[s.sp.val - 1]'(by omega)
    | .jp nnn => t.pc = zext16 nnn
    | .call nnn => t.pc = zext16 nnn
    | .jpV0 nnn => t.pc = zext16 (s.getV 0) + zext16 nnn
    | .seImm x nn => t.pc = if s.getV x = nn then s.pc + 4 else s.pc + 2
    | .sneImm x nn => t.pc = if s.getV x ≠ nn then s.pc + 4 else s.pc + 2
    | .seReg x y => t.pc = if s.getV x = s.getV y then s.pc + 4 else s.pc + 2
    | .sneReg x y => t.pc = if s.getV x ≠ s.getV y then s.pc + 4 else s.pc + 2
    | .skp x => t.pc = if s.keys.getLsbD (s.getV x).toNat then s.pc + 4 else s.pc + 2
    | .sknp x => t.pc = if s.keys.getLsbD (s.getV x).toNat then s.pc + 2 else s.pc + 4
    | _ => t.pc = s.pc + 2

/-! ### Faults -/

/-- R181, R180: a fault is precise, recorded, halting and sticky, and a reset clears the record. R181 says that no transaction of
the host clears the record; that none changes anything of the halted core is R33, read as log 19 reads it (DEDUCED). -/
def Obligations.FaultsArePreciseHaltingAndSticky : Prop :=
  ∀ s t : State, s.running → step s = .next t → t.halted →
    unchangedBut (fun part => part = .FAULT) s t ∧ t.mem = s.mem ∧
    (∃ (c : Cause) (n : Nat), cycleRaises s c n ∧ n < 2 ^ 17 ∧
      t.fault = ⟨true, c.code, s.pc, s.fetch.getD 0, BitVec.ofNat 17 n⟩) ∧
    observations s = [.fault t.fault.cause t.fault.fpc t.fault.fop t.fault.finfo] ∧
    (∀ n, runs n t t) ∧ observations t = [] ∧
    (∀ x : Transaction, x.apply t = .next t) ∧
    ∀ (p : Params) (keys : BitVec 16), (t.hostReset p keys).fault = FaultRecord.none

/-- R183: an instruction raises only the faults of its row of the table, its cycle those and the fetch's, UNKNOWN none; and a pc
above 4094 is faulted by the next cycle, under its own address. -/
def Obligations.EachInstructionRaisesOnlyItsOwnFaults : Prop :=
  (∀ (i : Instr) (s t : State), s.running → exec i s = .next t → t.halted → ∃ c ∈ ownCauses i, t.fault.cause = c.code) ∧
  (∀ s t : State, s.running → step s = .next t → t.halted →
    (4094 < s.pc.toNat ∧ t.fault.cause = 1) ∨
    ∃ i, s.fetch = some (encode i) ∧ ∃ c ∈ ownCauses i, t.fault.cause = c.code) ∧
  ∀ s t : State, s.running → step s = .next t → t.running → 4094 < t.pc.toNat →
    ∃ u, step t = .next u ∧ u.fault.valid = true ∧ u.fault.cause = 1 ∧ u.fault.fpc = t.pc

/-- R180, R182: the whole table of faults, with its numbers, and nothing else faults: where a check of the table fails, the cycle
raises that fault, records that number, emits nothing but it and changes nothing else; where none fails, the core stays
running; and no cycle raises two. -/
def Obligations.FaultsAreExactlyThoseOfTheTable : Prop :=
  ∀ s : State, s.running →
    (∀ (c : Cause) (n : Nat), cycleRaises s c n → ∃ t, step s = .next t ∧
      t.fault = ⟨true, c.code, s.pc, s.fetch.getD 0, BitVec.ofNat 17 n⟩ ∧ observations s = [t.faultSeen] ∧
      unchangedBut (fun part => part = .FAULT) s t) ∧
    ((¬ ∃ c n, cycleRaises s c n) → ∃ t, step s = .next t ∧ t.running) ∧
    ∀ (c d : Cause) (n m : Nat), cycleRaises s c n → cycleRaises s d m → c = d ∧ n = m

/-! ### Control transfer -/

/-- R101: RET. -/
def Obligations.RetPopsTheReturnAddress : Prop :=
  encode .ret = 0x00EE ∧
  ∀ s : State,
    (s.sp.val ≠ 0 → ∃ t, exec .ret s = .next t ∧ t.sp.val = s.sp.val - 1 ∧ t.pc = s.stack[s.sp.val - 1]'(by omega) ∧
      unchangedBut (fun part => part = .pc ∨ part = .SP) s t ∧ (returnsInRange s → t.pc.toNat ≤ 4096)) ∧
    (s.sp.val = 0 → takesFault .ret s 5 0)

/-- R102, R104: JP and JP_V0; the sum V[0] + NNN never wraps. -/
def Obligations.JumpsSetPcAndNothingElse : Prop :=
  ∀ (nnn : Addr) (s : State),
    (encode (.jp nnn) = 0x1#4 ++ nnn ∧ ∃ t, exec (.jp nnn) s = .next t ∧ t.pc.toNat = nnn.toNat ∧
      unchangedBut (fun part => part = .pc) s t) ∧
    (encode (.jpV0 nnn) = 0xB#4 ++ nnn ∧ ∃ t, exec (.jpV0 nnn) s = .next t ∧
      t.pc.toNat = (s.getV 0).toNat + nnn.toNat ∧ unchangedBut (fun part => part = .pc) s t)

/-- R103: CALL. -/
def Obligations.CallPushesTheReturnAddress : Prop :=
  ∀ (nnn : Addr) (s : State),
    encode (.call nnn) = 0x2#4 ++ nnn ∧
    (∀ k : Fin 16, s.sp.val = k.val → ∃ t, exec (.call nnn) s = .next t ∧ t.stack[k] = s.pc + 2 ∧
      t.sp.val = s.sp.val + 1 ∧ t.pc.toNat = nnn.toNat ∧
      unchangedBut (fun part => part = .pc ∨ part = .SP ∨ part = .slot k) s t) ∧
    (s.sp.val = 16 → takesFault (.call nnn) s 4 16)

/-- R101, R103: a call, then any body that leaves SP and the pushed slot as the call left them, then a return: pc is the
call site + 2 and SP what it was, at every nesting below 16. -/
def Obligations.CallAndReturnRoundTrip : Prop :=
  ∀ (nnn : Addr) (s : State), s.sp.val < 16 → ∃ t, exec (.call nnn) s = .next t ∧
    ∀ b : State, b.sp = t.sp → (∀ k : Fin 16, k.val < t.sp.val → b.stack[k] = t.stack[k]) →
      ∃ u, exec .ret b = .next u ∧ u.pc = s.pc + 2 ∧ u.sp = s.sp ∧
        ∀ k : Fin 16, k.val < s.sp.val → u.stack[k] = s.stack[k]

/-! ### Skips -/

/-- R111, R112, R113, R114: the register skips, with their words. -/
def Obligations.RegisterSkipsAdvanceFourOrTwo : Prop :=
  ∀ (x y : Reg) (nn : Byte) (s : State),
    (encode (.seImm x nn) = 0x3#4 ++ BitVec.ofNat 4 x.val ++ nn ∧ ∃ t, exec (.seImm x nn) s = .next t ∧
      t.pc = s.pc + (if s.getV x = nn then 4 else 2) ∧ unchangedBut (fun part => part = .pc) s t) ∧
    (encode (.sneImm x nn) = 0x4#4 ++ BitVec.ofNat 4 x.val ++ nn ∧ ∃ t, exec (.sneImm x nn) s = .next t ∧
      t.pc = s.pc + (if s.getV x = nn then 2 else 4) ∧ unchangedBut (fun part => part = .pc) s t) ∧
    (encode (.seReg x y) = 0x5#4 ++ BitVec.ofNat 4 x.val ++ BitVec.ofNat 4 y.val ++ 0x0#4 ∧ ∃ t, exec (.seReg x y) s = .next t ∧
      t.pc = s.pc + (if s.getV x = s.getV y then 4 else 2) ∧ unchangedBut (fun part => part = .pc) s t) ∧
    (encode (.sneReg x y) = 0x9#4 ++ BitVec.ofNat 4 x.val ++ BitVec.ofNat 4 y.val ++ 0x0#4 ∧ ∃ t, exec (.sneReg x y) s = .next t ∧
      t.pc = s.pc + (if s.getV x = s.getV y then 2 else 4) ∧ unchangedBut (fun part => part = .pc) s t)

/-! ### Load and arithmetic -/

/-- R121, R122, R123: LD_IMM, ADD_IMM (mod 256, no flag) and LD_REG, for every register, VF among them. -/
def Obligations.LoadsAndImmediateAdd : Prop :=
  ∀ (x y : Reg) (nn : Byte) (s : State),
    (encode (.ldImm x nn) = 0x6#4 ++ BitVec.ofNat 4 x.val ++ nn ∧
      completesBy (.ldImm x nn) s (fun part => part = .reg x) (fun t => t.getV x = nn)) ∧
    (encode (.addImm x nn) = 0x7#4 ++ BitVec.ofNat 4 x.val ++ nn ∧
      completesBy (.addImm x nn) s (fun part => part = .reg x)
        (fun t => (t.getV x).toNat = ((s.getV x).toNat + nn.toNat) % 256)) ∧
    (encode (.ldReg x y) = 0x8#4 ++ BitVec.ofNat 4 x.val ++ BitVec.ofNat 4 y.val ++ 0x0#4 ∧
      completesBy (.ldReg x y) s (fun part => part = .reg x) (fun t => t.getV x = s.getV y))

/-- R124, R125, R126: OR, AND, XOR bit by bit; no flag is written. -/
def Obligations.LogicIsBitwise : Prop :=
  ∀ (x y : Reg) (s : State),
    (encode (.orReg x y) = 0x8#4 ++ BitVec.ofNat 4 x.val ++ BitVec.ofNat 4 y.val ++ 0x1#4 ∧
      completesBy (.orReg x y) s (fun part => part = .reg x)
        (fun t => ∀ b, (t.getV x).getLsbD b = ((s.getV x).getLsbD b || (s.getV y).getLsbD b))) ∧
    (encode (.andReg x y) = 0x8#4 ++ BitVec.ofNat 4 x.val ++ BitVec.ofNat 4 y.val ++ 0x2#4 ∧
      completesBy (.andReg x y) s (fun part => part = .reg x)
        (fun t => ∀ b, (t.getV x).getLsbD b = ((s.getV x).getLsbD b && (s.getV y).getLsbD b))) ∧
    (encode (.xorReg x y) = 0x8#4 ++ BitVec.ofNat 4 x.val ++ BitVec.ofNat 4 y.val ++ 0x3#4 ∧
      completesBy (.xorReg x y) s (fun part => part = .reg x)
        (fun t => ∀ b, (t.getV x).getLsbD b = ((s.getV x).getLsbD b ^^ (s.getV y).getLsbD b)))

/-- R127: ADD_REG, the whole table of corner cases: with a, b, f the values of V[X], V[Y], VF before. -/
def Obligations.AddWithCarryAndItsAliasCases : Prop :=
  ∀ (x y : Reg) (s : State),
    encode (.addReg x y) = 0x8#4 ++ BitVec.ofNat 4 x.val ++ BitVec.ofNat 4 y.val ++ 0x4#4 ∧
    completesBy (.addReg x y) s (fun part => part = .reg x ∨ part = .reg vf) (fun t =>
      let a := (s.getV x).toNat; let b := (s.getV y).toNat; let f := (s.getV vf).toNat
      (x ≠ 15 → y ≠ 15 → (t.getV vf).toNat = (if a + b > 255 then 1 else 0) ∧ (t.getV x).toNat = (a + b) % 256) ∧
      (x ≠ 15 → y = 15 → (t.getV vf).toNat = (if a + f > 255 then 1 else 0) ∧
        (t.getV x).toNat = (a + (if a + f > 255 then 1 else 0)) % 256) ∧
      (x = 15 → y ≠ 15 → (t.getV vf).toNat = ((if f + b > 255 then 1 else 0) + b) % 256) ∧
      (x = 15 → y = 15 → (t.getV vf).toNat = if f ≥ 128 then 2 else 0))

/-- R128: SUB, strict "greater" to VF, V[X] - V[Y] mod 256, with its corner cases. -/
def Obligations.SubtractAndItsAliasCases : Prop :=
  ∀ (x y : Reg) (s : State),
    encode (.sub x y) = 0x8#4 ++ BitVec.ofNat 4 x.val ++ BitVec.ofNat 4 y.val ++ 0x5#4 ∧
    completesBy (.sub x y) s (fun part => part = .reg x ∨ part = .reg vf) (fun t =>
      let a := (s.getV x).toNat; let b := (s.getV y).toNat; let f := (s.getV vf).toNat
      (x ≠ 15 → y ≠ 15 → (t.getV vf).toNat = (if a > b then 1 else 0) ∧ (t.getV x).toNat = (256 + a - b) % 256) ∧
      (x ≠ 15 → y = 15 → (t.getV vf).toNat = (if a > f then 1 else 0) ∧
        (t.getV x).toNat = (256 + a - (if a > f then 1 else 0)) % 256) ∧
      (x = 15 → y ≠ 15 → (t.getV vf).toNat = (256 + (if f > b then 1 else 0) - b) % 256) ∧
      (x = 15 → y = 15 → (t.getV vf).toNat = 0))

/-- R130: SUBN, strict "less" to VF, V[Y] - V[X] mod 256, with its corner cases. -/
def Obligations.ReverseSubtractAndItsAliasCases : Prop :=
  ∀ (x y : Reg) (s : State),
    encode (.subn x y) = 0x8#4 ++ BitVec.ofNat 4 x.val ++ BitVec.ofNat 4 y.val ++ 0x7#4 ∧
    completesBy (.subn x y) s (fun part => part = .reg x ∨ part = .reg vf) (fun t =>
      let a := (s.getV x).toNat; let b := (s.getV y).toNat; let f := (s.getV vf).toNat
      (x ≠ 15 → y ≠ 15 → (t.getV vf).toNat = (if a < b then 1 else 0) ∧ (t.getV x).toNat = (256 + b - a) % 256) ∧
      (x ≠ 15 → y = 15 → (t.getV vf).toNat = (if a < f then 1 else 0) ∧
        (t.getV x).toNat = (256 + (if a < f then 1 else 0) - a) % 256) ∧
      (x = 15 → y ≠ 15 → (t.getV vf).toNat = (256 + b - (if f < b then 1 else 0)) % 256) ∧
      (x = 15 → y = 15 → (t.getV vf).toNat = 0))

/-- R129, R131: SHR and SHL, the bit shifted out to VF, V[Y] neither read nor written, and the case X = 15. -/
def Obligations.ShiftsByOneAndTheirAliasCases : Prop :=
  ∀ (x y : Reg) (s : State),
    (encode (.shr x y) = 0x8#4 ++ BitVec.ofNat 4 x.val ++ BitVec.ofNat 4 y.val ++ 0x6#4 ∧
      completesBy (.shr x y) s (fun part => part = .reg x ∨ part = .reg vf) (fun t =>
        (x ≠ 15 → (t.getV vf).toNat = (s.getV x).toNat % 2 ∧ (t.getV x).toNat = (s.getV x).toNat / 2) ∧
        (x = 15 → t.getV vf = 0))) ∧
    (encode (.shl x y) = 0x8#4 ++ BitVec.ofNat 4 x.val ++ BitVec.ofNat 4 y.val ++ 0xE#4 ∧
      completesBy (.shl x y) s (fun part => part = .reg x ∨ part = .reg vf) (fun t =>
        (x ≠ 15 → (t.getV vf).toNat = (s.getV x).toNat / 128 ∧ (t.getV x).toNat = 2 * (s.getV x).toNat % 256) ∧
        (x = 15 → (t.getV vf).toNat = if (s.getV vf).toNat ≥ 128 then 2 else 0)))

/-! ### Address register and memory -/

/-- R141, R142, R143: LD_I, ADD_I (with X = 15) and LD_F, which reads the BYTE at address V[X]. -/
def Obligations.WritersOfTheAddressRegister : Prop :=
  ∀ (x : Reg) (nnn : Addr) (s : State),
    (encode (.ldI nnn) = 0xA#4 ++ nnn ∧
      completesBy (.ldI nnn) s (fun part => part = .I) (fun t => t.I.toNat = nnn.toNat)) ∧
    (encode (.addI x) = 0xF#4 ++ BitVec.ofNat 4 x.val ++ 0x1E#8 ∧
      completesBy (.addI x) s (fun part => part = .I ∨ part = .reg vf) (fun t =>
        (t.getV vf).toNat = (if (s.getV x).toNat + s.I.toNat > 65535 then 1 else 0) ∧
        t.I.toNat = (s.I.toNat + (if x = 15 then (t.getV vf).toNat else (s.getV x).toNat)) % 65536)) ∧
    (encode (.ldF x) = 0xF#4 ++ BitVec.ofNat 4 x.val ++ 0x29#8 ∧
      completesBy (.ldF x) s (fun part => part = .I) (fun t => t.I.toNat = (s.byte (s.getV x).toNat).toNat))

/-- R144: BCD: the three digits at I, I + 1, I + 2, or DataOutOfRange, or GlyphWrite, with nothing stored. -/
def Obligations.BcdStoresThreeDigitsOrFaults : Prop :=
  ∀ (x : Reg) (s : State), s.mem.wf →
    encode (.bcd x) = 0xF#4 ++ BitVec.ofNat 4 x.val ++ 0x33#8 ∧
    (80 ≤ s.base → s.base ≤ 4093 → completesBy (.bcd x) s (fun part => ∃ k < 3, part = .byte (s.base + k)) (fun t =>
      let h := (t.byte s.base).toNat; let d := (t.byte (s.base + 1)).toNat; let o := (t.byte (s.base + 2)).toNat
      100 * h + 10 * d + o = (s.getV x).toNat ∧ h ≤ 2 ∧ d ≤ 9 ∧ o ≤ 9)) ∧
    (4093 < s.base → takesFault (.bcd x) s 2 (max s.base 4096)) ∧
    (s.base < 80 → takesFault (.bcd x) s 3 s.base)

/-- R145: ST_REGS: V[0..X] at I..I + X, I and the registers unchanged, or a fault with nothing stored. -/
def Obligations.StoreRegistersOrFaults : Prop :=
  ∀ (x : Reg) (s : State), s.mem.wf →
    encode (.stRegs x) = 0xF#4 ++ BitVec.ofNat 4 x.val ++ 0x55#8 ∧
    (80 ≤ s.base → s.base + x.val ≤ 4095 →
      completesBy (.stRegs x) s (fun part => ∃ k ≤ x.val, part = .byte (s.base + k))
        (fun t => ∀ k : Reg, k ≤ x → t.byte (s.base + k.val) = s.getV k)) ∧
    (4095 < s.base + x.val → takesFault (.stRegs x) s 2 (max s.base 4096)) ∧
    (s.base < 80 → takesFault (.stRegs x) s 3 s.base)

/-- R146: LD_REGS: V[0..X] from I..I + X, I and memory unchanged, or DataOutOfRange with no register changed. -/
def Obligations.LoadRegistersOrFaults : Prop :=
  ∀ (x : Reg) (s : State),
    encode (.ldRegs x) = 0xF#4 ++ BitVec.ofNat 4 x.val ++ 0x65#8 ∧
    (s.base + x.val ≤ 4095 → completesBy (.ldRegs x) s (fun part => ∃ k ≤ x, part = .reg k)
      (fun t => ∀ k : Reg, k ≤ x → t.getV k = s.byte (s.base + k.val))) ∧
    (4095 < s.base + x.val → takesFault (.ldRegs x) s 2 (max s.base 4096))

/-- R58, R145, R146: FX65 reads back the layout FX55 wrote: after storing V[0..X], with I, X and memory then untouched, a load
restores those registers whatever they have become. -/
def Obligations.LoadReadsBackWhatStoreWrote : Prop :=
  ∀ (x : Reg) (s t b : State), s.mem.wf → 80 ≤ s.base → s.base + x.val ≤ 4095 → exec (.stRegs x) s = .next t →
    b.I = t.I → (∀ a, b.byte a = t.byte a) →
    ∃ u, exec (.ldRegs x) b = .next u ∧ (∀ k : Reg, k ≤ x → u.getV k = s.getV k) ∧ ∀ k : Reg, x < k → u.getV k = b.getV k

/-- R63: a fetch sees the bytes that a store put at its address, in the very next cycle. -/
def Obligations.FetchSeesStoredBytes : Prop :=
  ∀ (x : Reg) (s t : State) (k l : Reg), s.mem.wf → 80 ≤ s.base → s.base + x.val ≤ 4095 → exec (.stRegs x) s = .next t →
    l ≤ x → l.val = k.val + 1 → t.pc.toNat = s.base + k.val → t.fetch = some (s.getV k ++ s.getV l)

/-- The model's own form of memory (log 11, DESIGN CHOICE; not a rule of the spec, whose MEM of R50 is a sequence of bytes):
canonical memories that read the same at every address are the same data, so that equal states are equal memories. -/
def Obligations.CanonicalMemoriesAreEqualWhenTheyReadEqual : Prop :=
  ∀ m n : Memory, m.wf → n.wf → (∀ a, m.read a = n.read a) → m = n

/-! ### Display -/

/-- R151: CLS: every pixel 0; VF and DIRTY are not written. -/
def Obligations.ClearTurnsEveryPixelOff : Prop :=
  encode .cls = 0x00E0 ∧
  ∀ s : State, completesBy .cls s (fun part => ∃ p, part = .pixel p) (fun t => ∀ p < 2048, t.fb.pixel p = false)

/-- R152, R154: DRW with every sprite byte readable and every set bit on the grid: exactly the pixels under set bits are
toggled, VF is 1 exactly when one of them was 1, DIRTY is set, and nothing else changes; N = 0 included. -/
def Obligations.DrawTogglesExactlyTheSprite : Prop :=
  ∀ (x y : Reg) (n : Fin 16) (s : State), (n.val = 0 ∨ s.base + n.val ≤ 4096) →
    (∀ c r, inSprite s x y n c r → c ≤ 63 ∧ r ≤ 31) →
    encode (.drw x y n) = 0xD#4 ++ BitVec.ofNat 4 x.val ++ BitVec.ofNat 4 y.val ++ BitVec.ofNat 4 n.val ∧
    completesBy (.drw x y n) s (fun part => part = .reg vf ∨ part = .DIRTY ∨ ∃ p, part = .pixel p) (fun t =>
      (∀ c ≤ 63, ∀ r ≤ 31, (inSprite s x y n c r → t.fb.pixel (c + 64 * r) = !s.fb.pixel (c + 64 * r)) ∧
        (¬ inSprite s x y n c r → t.fb.pixel (c + 64 * r) = s.fb.pixel (c + 64 * r))) ∧
      ((∃ c r, inSprite s x y n c r ∧ s.fb.pixel (c + 64 * r) = true) → t.getV vf = 1) ∧
      ((¬ ∃ c r, inSprite s x y n c r ∧ s.fb.pixel (c + 64 * r) = true) → t.getV vf = 0) ∧
      t.dirty = true)

/-- R153: DRW's faults: the memory check first and whatever the coordinates; then the first set bit off the grid, rows
ascending and bit 7 first, tested per coordinate; a sprite whose set bits all lie on the grid, or of no rows, never faults. -/
def Obligations.DrawFaultsInTheOrderOfTheRule : Prop :=
  ∀ (x y : Reg) (n : Fin 16) (s : State),
    (0 < n.val → 4096 < s.base + n.val → takesFault (.drw x y n) s 2 (max s.base 4096)) ∧
    (s.base + n.val ≤ 4096 → ∀ j < n.val, ∀ i < 8,
      (s.byte (s.base + j)).getLsbD (7 - i) = true → ((s.getV x).toNat + i > 63 ∨ (s.getV y).toNat + j > 31) →
      (∀ j' < n.val, ∀ i' < 8, (j' < j ∨ (j' = j ∧ i' < i)) → (s.byte (s.base + j')).getLsbD (7 - i') = true →
        (s.getV x).toNat + i' ≤ 63 ∧ (s.getV y).toNat + j' ≤ 31) →
      takesFault (.drw x y n) s 6 (((s.getV x).toNat + i) + 64 * ((s.getV y).toNat + j))) ∧
    ((n.val = 0 ∨ s.base + n.val ≤ 4096) → (∀ c r, inSprite s x y n c r → c ≤ 63 ∧ r ≤ 31) →
      ∃ t, exec (.drw x y n) s = .next t ∧ t.fault = s.fault)

/-- R152 and the property the source gives of it: drawing the same sprite again at the same place, with the coordinate
registers not VF, restores every pixel, and the second time reports a collision exactly when the first turned a pixel on. -/
def Obligations.DrawingTwiceRestoresTheScreen : Prop :=
  ∀ (x y : Reg) (n : Fin 16) (s t : State), x ≠ 15 → y ≠ 15 → exec (.drw x y n) s = .next t → s.running → t.running →
    ∃ u, exec (.drw x y n) t = .next u ∧ u.running ∧ (∀ p < 2048, u.fb.pixel p = s.fb.pixel p) ∧
      (u.getV vf = 1 ↔ ∃ c r, inSprite s x y n c r ∧ s.fb.pixel (c + 64 * r) = false)

/-! ### Keypad -/

/-- R161, R162: SKP and SKNP: the key is named by the whole value of V[X]; above 15 it faults. -/
def Obligations.KeySkipsTestTheNamedKey : Prop :=
  ∀ (x : Reg) (s : State),
    encode (.skp x) = 0xE#4 ++ BitVec.ofNat 4 x.val ++ 0x9E#8 ∧ encode (.sknp x) = 0xE#4 ++ BitVec.ofNat 4 x.val ++ 0xA1#8 ∧
    ((s.getV x).toNat ≤ 15 →
      (∃ t, exec (.skp x) s = .next t ∧ t.pc = s.pc + (if s.keys.getLsbD (s.getV x).toNat then 4 else 2) ∧
        unchangedBut (fun part => part = .pc) s t) ∧
      (∃ t, exec (.sknp x) s = .next t ∧ t.pc = s.pc + (if s.keys.getLsbD (s.getV x).toNat then 2 else 4) ∧
        unchangedBut (fun part => part = .pc) s t)) ∧
    (15 < (s.getV x).toNat →
      takesFault (.skp x) s 7 (s.getV x).toNat ∧ takesFault (.sknp x) s 7 (s.getV x).toNat)

/-- R163: FX0A: when the host has answered k, V[X] becomes k (the answer is used up, log 5), whatever KEYS holds; while it has
not, nothing changes. -/
def Obligations.KeyWaitTakesTheAnswer : Prop :=
  ∀ (x : Reg) (s : State),
    encode (.ldVxK x) = 0xF#4 ++ BitVec.ofNat 4 x.val ++ 0x0A#8 ∧
    (∀ (k : Reg) (rest : List Reg), s.keyAnswers = k :: rest →
      completesBy (.ldVxK x) s (fun part => part = .reg x ∨ part = .keyAnswers)
        (fun t => (t.getV x).toNat = k.val ∧ t.keyAnswers = rest)) ∧
    (s.keyAnswers = [] → exec (.ldVxK x) s = .next s)

/-- R163, R164: the wait lasts any number of attempts with nothing changed and nothing emitted, and an answer k of the host
ends it in one cycle with one tick. -/
def Obligations.KeyWaitLastsUntilAnswered : Prop :=
  ∀ (s : State), s.waiting → (∀ n, runs n s s) ∧ observations s = [] ∧
    ∀ k : Reg, ∃ t, step (s.answerKey k) = .next t ∧ t.pc = s.pc + 2 ∧ t.running ∧ t.keyAnswers = [] ∧
      t.dt.toNat = s.dt.toNat - 1 ∧ t.st.toNat = s.st.toNat - 1 ∧
      ∃ x : Reg, s.fetch = some (encode (.ldVxK x)) ∧ (t.getV x).toNat = k.val

/-! ### Timers and random -/

/-- R171, R172, R173: FX07, FX15, FX18, and what their whole cycles leave, the tick included. -/
def Obligations.TimerTransfers : Prop :=
  ∀ (x : Reg) (s : State),
    (encode (.ldVxDt x) = 0xF#4 ++ BitVec.ofNat 4 x.val ++ 0x07#8 ∧
      completesBy (.ldVxDt x) s (fun part => part = .reg x) (fun t => t.getV x = s.dt) ∧
      (s.running → s.fetch = some (encode (.ldVxDt x)) →
        ∃ u, step s = .next u ∧ u.getV x = s.dt ∧ u.dt.toNat = s.dt.toNat - 1)) ∧
    (encode (.ldDtVx x) = 0xF#4 ++ BitVec.ofNat 4 x.val ++ 0x15#8 ∧
      completesBy (.ldDtVx x) s (fun part => part = .DT) (fun t => t.dt = s.getV x) ∧
      (s.running → s.fetch = some (encode (.ldDtVx x)) →
        ∃ u, step s = .next u ∧ u.dt.toNat = (s.getV x).toNat - 1 ∧ (.dtEdge ∈ observations s ↔ s.getV x = 1))) ∧
    (encode (.ldStVx x) = 0xF#4 ++ BitVec.ofNat 4 x.val ++ 0x18#8 ∧
      completesBy (.ldStVx x) s (fun part => part = .ST) (fun t => t.st = s.getV x) ∧
      (s.running → s.fetch = some (encode (.ldStVx x)) →
        ∃ u, step s = .next u ∧ u.st.toNat = (s.getV x).toNat - 1 ∧ (.stEdge ∈ observations s ↔ s.getV x = 1)))

/-- R209: DT counts completed cycles: over n cycles none of which runs FX15 or waits, from a core that stays running, DT
falls by n and stops at 0; so does ST where none runs FX18. -/
def Obligations.TimersCountCompletedCycles : Prop :=
  ∀ (n : Nat) (s t : State), runs n s t → t.running → (∀ k < n, ∀ u, runs k s u → ¬ u.waiting) →
    ((∀ k < n, ∀ u, runs k s u → ∀ x, u.fetch ≠ some (encode (.ldDtVx x))) → t.dt.toNat = s.dt.toNat - n) ∧
    ((∀ k < n, ∀ u, runs k s u → ∀ x, u.fetch ≠ some (encode (.ldStVx x))) → t.st.toNat = s.st.toNat - n)

/-- R174, R38: CXNN: V[X] is the cycle's random byte AND NN: the byte the environment laid ready, or else the free value at a
fresh number; no bit outside NN is ever set, and every subset of NN's bits is reached by some byte. Nothing else changes. -/
def Obligations.RandomByteIsMasked : Prop :=
  ∀ (x : Reg) (nn : Byte) (s : State),
    encode (.rnd x nn) = 0xC#4 ++ BitVec.ofNat 4 x.val ++ nn ∧
    (∀ (b : Byte) (rest : List Byte), s.rndSupply = b :: rest →
      completesBy (.rnd x nn) s (fun part => part = .reg x ∨ part = .random)
        (fun t => t.getV x = b &&& nn ∧ t.rndSupply = rest ∧ t.rndDraws = s.rndDraws)) ∧
    (s.rndSupply = [] → completesBy (.rnd x nn) s (fun part => part = .reg x ∨ part = .random)
        (fun t => t.getV x = Config.freeRandomByte s.rndDraws &&& nn ∧ t.rndSupply = [] ∧ t.rndDraws = s.rndDraws + 1)) ∧
    (∀ t, exec (.rnd x nn) s = .next t → t.getV x &&& ~~~nn = 0) ∧
    ∀ sub : Byte, sub &&& ~~~nn = 0 → ∃ (b : Byte) (t : State),
      exec (.rnd x nn) { s with rndSupply := [b] } = .next t ∧ t.getV x = sub

/-! ### Whole-machine rules -/

/-- R21 to R23, R25 to R31, R33, R52, R183: which instructions may write which state, registers and FAULT included; all others
leave it alone. The model's own answers and random bytes (log 4, 5) are taken by FX0A and CXNN only. -/
def Obligations.OnlyTheNamedInstructionsWriteEachPart : Prop :=
  ∀ (i : Instr) (s t : State), exec i s = .next t →
    t.keys = s.keys ∧
    (∀ r : Reg, t.getV r ≠ s.getV r → mayWriteReg i r) ∧
    (t.fault ≠ s.fault → t.fault.valid = true ∧ ∃ c ∈ ownCauses i, t.fault.cause = c.code) ∧
    (t.keyAnswers ≠ s.keyAnswers → ∃ x, i = .ldVxK x) ∧
    (t.rndSupply ≠ s.rndSupply ∨ t.rndDraws ≠ s.rndDraws → ∃ x nn, i = .rnd x nn) ∧
    (t.mem ≠ s.mem → ∃ x, i = .bcd x ∨ i = .stRegs x) ∧
    (t.I ≠ s.I → (∃ nnn, i = .ldI nnn) ∨ ∃ x, i = .addI x ∨ i = .ldF x) ∧
    (t.sp ≠ s.sp → i = .ret ∨ ∃ nnn, i = .call nnn) ∧
    (t.stack ≠ s.stack → ∃ nnn, i = .call nnn) ∧
    (t.dt ≠ s.dt → ∃ x, i = .ldDtVx x) ∧
    (t.st ≠ s.st → ∃ x, i = .ldStVx x) ∧
    (t.fb ≠ s.fb → i = .cls ∨ ∃ x y n, i = .drw x y n) ∧
    (t.dirty ≠ s.dirty → t.dirty = true ∧ ∃ x y n, i = .drw x y n)

/-- R215: the core depends on KEYS only through EX9E and EXA1: with another snapshot, every other cycle does the same. -/
def Obligations.KeysMatterOnlyToTheKeySkips : Prop :=
  ∀ (s t : State) (keys : BitVec 16), step s = .next t →
    (∀ x, s.fetch ≠ some (encode (.skp x)) ∧ s.fetch ≠ some (encode (.sknp x))) →
    step (s.writeKeys keys) = .next (t.writeKeys keys) ∧ observations (s.writeKeys keys) = observations s

/-- R30, R213, R215: no instruction reads DIRTY: clearing it before a cycle changes nothing of the cycle but DIRTY itself, and
no cycle clears it. -/
def Obligations.DirtyIsNeverReadNorCleared : Prop :=
  ∀ s t : State, step s = .next t →
    (s.dirty = true → t.dirty = true) ∧ observations s.clearDirty = observations s ∧
    ∃ u, step s.clearDirty = .next u ∧ u.clearDirty = t.clearDirty

/-- R216: a parked program stays parked: any number of cycles changes only DT and ST, which count down to 0 and stay there. -/
def Obligations.ParkedProgramStaysParked : Prop :=
  ∀ (n : Nat) (s : State), s.parked → ∃ t, runs n s t ∧ t.parked ∧ t.dt.toNat = s.dt.toNat - n ∧ t.st.toNat = s.st.toNat - n ∧
    t.mem = s.mem ∧ unchangedBut (fun part => part = .DT ∨ part = .ST) s t

/-! ### Reset, load and invariants -/

/-- R41: the state after reset, for every GLYPH, MEM_FILL and KEYS, and memory after the load of any legal image. -/
def Obligations.ResetLeavesTheStateOfTheTable : Prop :=
  ∀ (p : Params) (keys : BitVec 16),
    (let s := State.resetWith p keys
    (∀ a : Fin 80, s.byte a.val = p.glyph a) ∧ (∀ a, 80 ≤ a → a < 4096 → s.byte a = p.memFill a) ∧
    (∀ r, s.getV r = 0) ∧ s.I = 0 ∧ s.pc.toNat = 512 ∧ (∀ k : Fin 16, s.stack[k] = 0) ∧ s.sp.val = 0 ∧ s.dt = 0 ∧
    s.st = 0 ∧ (∀ p < 2048, s.fb.pixel p = false) ∧ s.dirty = false ∧ s.keys = keys ∧ s.fault = ⟨false, 0, 0, 0, 0⟩) ∧
    ∀ image : List Byte, image.length ≤ 3584 → ∃ t, boot p keys image = some t ∧ t.pc.toNat = 512 ∧
      (∀ k, k < image.length → t.byte (512 + k) = image.getD k 0) ∧
      ∀ a, a < 4096 → (a < 512 ∨ 512 + image.length ≤ a) → t.byte a = (State.resetWith p keys).byte a

/-- R33, R35, R36, R37, R38, R40: on a running core each transaction of the host but the cycle request changes the one part it is
about, and nothing else; on a halted core no transaction changes anything (log 19). The answers and the bytes laid ready are the
model's inputs (log 4, 5). -/
def Obligations.HostTransactionsTouchOnlyTheirPart : Prop :=
  (∀ (s : State) (x : Transaction), s.halted → x.apply s = .next s) ∧
  ∀ (s : State) (keys : BitVec 16) (k : Reg) (b : Byte), s.running →
    (∃ t, (Transaction.writeKeys keys).apply s = .next t ∧ t.keys = keys ∧ unchangedBut (fun part => part = .KEYS) s t) ∧
    (∃ t, Transaction.clearDirty.apply s = .next t ∧ t.dirty = false ∧ unchangedBut (fun part => part = .DIRTY) s t) ∧
    (∃ t, (Transaction.answerKey k).apply s = .next t ∧ t.keyAnswers = s.keyAnswers ++ [k] ∧
      unchangedBut (fun part => part = .keyAnswers) s t) ∧
    (∃ t, (Transaction.supplyRandom b).apply s = .next t ∧ t.rndSupply = s.rndSupply ++ [b] ∧
      unchangedBut (fun part => part = .random) s t)

/-- R205, R204: load puts the image at 512 and changes nothing else; an image over 3584 bytes is refused. -/
def Obligations.LoadPlacesTheImage : Prop :=
  ∀ (s : State) (image : List Byte), s.mem.wf →
    (image.length ≤ 3584 → ∃ t, s.load image = some t ∧ t.pc = s.pc ∧
      (∀ k, k < image.length → t.byte (512 + k) = image.getD k 0) ∧
      unchangedBut (fun part => ∃ k < image.length, part = .byte (512 + k)) s t) ∧
    (3584 < image.length → s.load image = none)

/-- R26, R101, R181 and the canonical form of memory: every step keeps the invariant `Inv` of Safety.lean, from every state
that has it, reachable or not. -/
def Obligations.EveryStepKeepsTheInvariant : Prop :=
  ∀ s t : State, Inv s → step s = .next t → Inv t

/-- Reset has the invariant, for the model's parameters and for every others (R41; `State.reset` rests on log 1, 2, 3). -/
def Obligations.ResetHasTheInvariant : Prop :=
  Inv State.reset ∧ ∀ (p : Params) (keys : BitVec 16), Inv (State.resetWith p keys)

/-- R60: MEM[0..79] = GLYPH in every state of every run, through any transactions, loads and later resets; every step keeps any
80 bytes that stand there, from every state with the invariant, reachable or not; and a store that would change them raises
GlyphWrite. -/
def Obligations.GlyphTableIsNeverOverwritten : Prop :=
  (∀ (p : Params) (s : State), Reachable p s → glyphIntact p.glyph s) ∧
  (∀ (glyph : Fin 80 → Byte) (s t : State), Inv s → glyphIntact glyph s → step s = .next t → glyphIntact glyph t) ∧
  ∀ (s : State) (x : Reg), s.base < 80 → takesFault (.bcd x) s 3 s.base ∧ takesFault (.stRegs x) s 3 s.base

/-- R26, R33, R101: every state a run can reach has the invariant, and its next cycle request returns a state that a run can
reach (R34, R40). -/
def Obligations.EveryReachableStateIsSound : Prop :=
  ∀ (p : Params) (s : State), Reachable p s → Inv s ∧ ∃ t, step s = .next t ∧ Reachable p t
end

