-- ==== Sys2Proof/Laws/Decode.lean ====
section
/-! SUPPORT. Laws/Decode.lean: what each field and each mask of spec/30_encoding.md gives on a word of each format, and that no
two rows of the table hit one word (R76). -/

namespace Sys2Proof

theorem fieldX_encXNN (f : BitVec 4) (x : Reg) (nn : Byte) : fieldX (encXNN f x nn) = x := by
  have h : (encXNN f x nn).extractLsb' 8 4 = BitVec.ofFin x := by
    apply BitVec.eq_of_getLsbD_eq
    intro i hi
    simp only [encXNN, BitVec.getLsbD_extractLsb', BitVec.getLsbD_append]
    simp [hi, show ¬ (8 + i < 8) by omega, show 8 + i - 8 = i by omega]
  unfold fieldX
  rw [h]

theorem fieldNN_encXNN (f : BitVec 4) (x : Reg) (nn : Byte) : fieldNN (encXNN f x nn) = nn := by
  unfold fieldNN
  apply BitVec.eq_of_getLsbD_eq
  intro i hi
  simp only [encXNN, BitVec.getLsbD_extractLsb', BitVec.getLsbD_append]
  simp [hi]

theorem fieldNNN_encNNN (f : BitVec 4) (nnn : Addr) : fieldNNN (encNNN f nnn) = nnn := by
  unfold fieldNNN
  apply BitVec.eq_of_getLsbD_eq
  intro i hi
  simp only [encNNN, BitVec.getLsbD_extractLsb', BitVec.getLsbD_append]
  simp [hi]

theorem fieldX_encXYN (f : BitVec 4) (x y : Reg) (n : BitVec 4) : fieldX (encXYN f x y n) = x := by
  have h : (encXYN f x y n).extractLsb' 8 4 = BitVec.ofFin x := by
    apply BitVec.eq_of_getLsbD_eq
    intro i hi
    simp only [encXYN, BitVec.getLsbD_extractLsb', BitVec.getLsbD_append]
    simp [hi, show ¬ (8 + i < 4) by omega, show ¬ (8 + i - 4 < 4) by omega, show 8 + i - 4 - 4 = i by omega]
  unfold fieldX
  rw [h]

theorem fieldY_encXYN (f : BitVec 4) (x y : Reg) (n : BitVec 4) : fieldY (encXYN f x y n) = y := by
  have h : (encXYN f x y n).extractLsb' 4 4 = BitVec.ofFin y := by
    apply BitVec.eq_of_getLsbD_eq
    intro i hi
    simp only [encXYN, BitVec.getLsbD_extractLsb', BitVec.getLsbD_append]
    simp [hi, show ¬ (4 + i < 4) by omega]
  unfold fieldY
  rw [h]

theorem fieldN_encXYN (f : BitVec 4) (x y n : Fin 16) : fieldN (encXYN f x y (BitVec.ofFin n)) = n := by
  have h : (encXYN f x y (BitVec.ofFin n)).extractLsb' 0 4 = BitVec.ofFin n := by
    apply BitVec.eq_of_getLsbD_eq
    intro i hi
    simp only [encXYN, BitVec.getLsbD_extractLsb', BitVec.getLsbD_append]
    simp [hi]
  unfold fieldN
  rw [h]

/-- The mask 0xF000 keeps the family nibble of a word of format NNN. -/
theorem encNNN_and (f : BitVec 4) (nnn : Addr) : encNNN f nnn &&& 0xF000 = encNNN f 0 := by
  apply BitVec.eq_of_getLsbD_eq
  intro i hi
  simp only [encNNN, BitVec.getLsbD_and, BitVec.getLsbD_append]
  interval_cases i <;> simp

/-- The mask 0xF000 keeps the family nibble of a word of format XNN. -/
theorem encXNN_and (f : BitVec 4) (x : Reg) (nn : Byte) : encXNN f x nn &&& 0xF000 = encXNN f 0 0 := by
  apply BitVec.eq_of_getLsbD_eq
  intro i hi
  simp only [encXNN, BitVec.getLsbD_and, BitVec.getLsbD_append]
  interval_cases i <;> simp

/-- The mask 0xF0FF keeps the family nibble and the trailing byte. -/
theorem encXNN_and_X (f : BitVec 4) (x : Reg) (nn : Byte) : encXNN f x nn &&& 0xF0FF = encXNN f 0 nn := by
  apply BitVec.eq_of_getLsbD_eq
  intro i hi
  simp only [encXNN, BitVec.getLsbD_and, BitVec.getLsbD_append]
  interval_cases i <;> simp

/-- The mask 0xF00F keeps the family nibble and the trailing nibble. -/
theorem encXYN_and (f : BitVec 4) (x y : Reg) (n : BitVec 4) : encXYN f x y n &&& 0xF00F = encXYN f 0 0 n := by
  apply BitVec.eq_of_getLsbD_eq
  intro i hi
  simp only [encXYN, BitVec.getLsbD_and, BitVec.getLsbD_append]
  interval_cases i <;> simp

/-- The mask 0xF000 keeps the family nibble of a word of format XYN. -/
theorem encXYN_and_top (f : BitVec 4) (x y : Reg) (n : BitVec 4) : encXYN f x y n &&& 0xF000 = encXYN f 0 0 0 := by
  apply BitVec.eq_of_getLsbD_eq
  intro i hi
  simp only [encXYN, BitVec.getLsbD_and, BitVec.getLsbD_append]
  interval_cases i <;> simp

/-- A word is its four nibbles. -/
theorem word_eq_fields (op : Word) : encXYN (op.extractLsb' 12 4) (fieldX op) (fieldY op) (op.extractLsb' 0 4) = op := by
  apply BitVec.eq_of_getLsbD_eq
  intro i hi
  have hx : (BitVec.ofFin (fieldX op) : BitVec 4) = op.extractLsb' 8 4 := rfl
  have hy : (BitVec.ofFin (fieldY op) : BitVec 4) = op.extractLsb' 4 4 := rfl
  unfold encXYN
  rw [hx, hy]
  simp only [BitVec.getLsbD_append, BitVec.getLsbD_extractLsb']
  interval_cases i <;> simp

/-- A word of the formats NNN. -/
theorem word_eq_NNN (op : Word) : encNNN (op.extractLsb' 12 4) (fieldNNN op) = op := by
  apply BitVec.eq_of_getLsbD_eq
  intro i hi
  unfold encNNN fieldNNN
  simp only [BitVec.getLsbD_append, BitVec.getLsbD_extractLsb']
  interval_cases i <;> simp

/-- A word of the formats XNN and X. -/
theorem word_eq_XNN (op : Word) : encXNN (op.extractLsb' 12 4) (fieldX op) (fieldNN op) = op := by
  apply BitVec.eq_of_getLsbD_eq
  intro i hi
  have hx : (BitVec.ofFin (fieldX op) : BitVec 4) = op.extractLsb' 8 4 := rfl
  unfold encXNN fieldNN
  rw [hx]
  simp only [BitVec.getLsbD_append, BitVec.getLsbD_extractLsb']
  interval_cases i <;> simp

/-- A field that a mask keeps whole is the pattern's. -/
theorem field_of_mask {op m p : Word} (h : op &&& m = p) (start len : Nat)
    (hm : m.extractLsb' start len = BitVec.allOnes len) : op.extractLsb' start len = p.extractLsb' start len := by
  rw [← h, BitVec.extractLsb'_and, hm, BitVec.and_allOnes]

/-- Whether two rows differ in a digit that both masks look at, so that no word hits both. -/
def Row.apart (r q : Row) : Bool := (r.pat ^^^ q.pat) &&& r.mask &&& q.mask != 0

theorem Row.not_hits_both {r q : Row} (h : r.apart q = true) {op : Word} (hr : r.hits op = true) : q.hits op = false := by
  cases hq : q.hits op with
  | false => rfl
  | true =>
    simp only [Row.hits, beq_iff_eq] at hr hq
    simp only [Row.apart, bne_iff_ne, ne_eq] at h
    refine absurd ?_ h
    rw [← hr, ← hq]
    apply BitVec.eq_of_getLsbD_eq
    intro i hi
    simp only [BitVec.getLsbD_and, BitVec.getLsbD_xor]
    cases op.getLsbD i <;> cases r.mask.getLsbD i <;> cases q.mask.getLsbD i <;> simp

/-- Every two rows of the table are apart (R76). -/
theorem opcodeTable_pairwise_apart : opcodeTable.Pairwise (fun r q => r.apart q = true) := by decide +kernel

theorem opcodeTable_length : opcodeTable.length = 34 := rfl

/-- In a table of rows that are apart, a word finds the row that it hits. -/
theorem find_of_hits {rows : List Row} (hp : rows.Pairwise (fun r q => r.apart q = true)) {op : Word} {r : Row} (hr : r ∈ rows)
    (hh : r.hits op = true) : rows.find? (fun q => q.hits op) = some r := by
  induction rows with
  | nil => simp at hr
  | cons q rows ih =>
    obtain ⟨hq, hp⟩ := List.pairwise_cons.1 hp
    rcases List.mem_cons.1 hr with rfl | hr
    · simp [hh]
    · have hn : q.hits op = false := by
        cases h : q.hits op with
        | false => rfl
        | true => exact absurd hh (by simp [Row.not_hits_both (hq r hr) h])
      rw [List.find?_cons, hn]
      exact ih hp hr

/-- What decode gives for a word whose first hit is this row. -/
theorem decode_of_find {op : Word} {r : Row} (h : opcodeTable.find? (fun q => q.hits op) = some r) :
    decode op = .ok (r.build op) := by
  unfold decode
  rw [h]

/-- What decode gives for a word that a row of the table hits (R74, R76). -/
theorem decode_of_hits {op : Word} {r : Row} (hr : r ∈ opcodeTable) (hh : r.hits op = true) : decode op = .ok (r.build op) :=
  decode_of_find (find_of_hits opcodeTable_pairwise_apart hr hh)

end Sys2Proof
end

