-- ==== Sys2Proof/Laws/Memory.lean ====
section
/-! SUPPORT. Laws/Memory.lean: what reading after a write or a store gives, and that every memory operation keeps the canonical
form `Memory.wf`. -/

namespace Sys2Proof.Machine

/-- Every entry lies above `a`. -/
abbrev Memory.above (m : Memory) (a : Nat) : Prop := ∀ c ∈ m, a < c.1

theorem Memory.read_of_above {m : Memory} {a : Nat} (h : m.above a) : m.read a = Memory.unlisted a := by
  induction m with
  | nil => rfl
  | cons c m ih =>
    have hc : a < c.1 := h c (by simp)
    have hm : Memory.above m a := fun d hd => h d (by simp [hd])
    simp only [Memory.read]
    rw [if_neg (by omega)]
    exact ih hm

theorem Memory.write_mem {m : Memory} {a : Nat} {b : Byte} {c : Host.Cell} (h : c ∈ m.write a b) :
    c ∈ m ∨ (c = (a, b) ∧ b ≠ Memory.unlisted a) := by
  induction m with
  | nil =>
    unfold Memory.write at h
    split at h
    · simp at h
    · simp at h; exact .inr ⟨h, ‹_›⟩
  | cons d m ih =>
    unfold Memory.write at h
    split at h
    · split at h
      · exact .inl h
      · rcases List.mem_cons.1 h with h | h
        · exact .inr ⟨h, ‹_›⟩
        · exact .inl h
    · split at h
      · split at h
        · exact .inl (List.mem_cons_of_mem _ h)
        · rcases List.mem_cons.1 h with h | h
          · exact .inr ⟨h, ‹_›⟩
          · exact .inl (List.mem_cons_of_mem _ h)
      · rcases List.mem_cons.1 h with h | h
        · exact .inl (by simp [h])
        · rcases ih h with h | h
          · exact .inl (List.mem_cons_of_mem _ h)
          · exact .inr h

/-- A write keeps the canonical form. -/
theorem Memory.write_wf {m : Memory} (hm : m.wf) {a : Nat} (ha : a < 4096) (b : Byte) : (m.write a b).wf := by
  refine ⟨?_, ?_⟩
  · obtain ⟨hs, -⟩ := hm
    induction m with
    | nil =>
      unfold Memory.write
      split <;> simp
    | cons d m ih =>
      obtain ⟨hd, hs⟩ := List.pairwise_cons.1 hs
      unfold Memory.write
      split
      · split
        · exact List.pairwise_cons.2 ⟨hd, hs⟩
        · refine List.pairwise_cons.2 ⟨?_, List.pairwise_cons.2 ⟨hd, hs⟩⟩
          intro c hc
          rcases List.mem_cons.1 hc with rfl | hc
          · assumption
          · have := hd c hc; omega
      · split
        · split
          · exact hs
          · refine List.pairwise_cons.2 ⟨?_, hs⟩
            intro c hc
            have := hd c hc; omega
        · refine List.pairwise_cons.2 ⟨?_, ih hs⟩
          intro c hc
          rcases Memory.write_mem hc with hc | ⟨rfl, -⟩
          · exact hd c hc
          · omega
  · intro c hc
    rcases Memory.write_mem hc with hc | ⟨rfl, hb⟩
    · exact hm.2 c hc
    · exact ⟨ha, hb⟩

/-- A store of bytes inside memory keeps the canonical form. -/
theorem Memory.store_wf {m : Memory} (hm : m.wf) {a : Nat} {bs : List Byte} (h : a + bs.length ≤ 4096) :
    (m.store a bs).wf := by
  induction bs generalizing m a with
  | nil => exact hm
  | cons b bs ih =>
    simp only [List.length_cons] at h
    exact ih (Memory.write_wf hm (by omega) b) (by omega)

/-- Reading after a write, in a memory of rising addresses. -/
theorem Memory.read_write {m : Memory} (hm : m.Pairwise (fun c d => c.1 < d.1)) (a p : Nat) (b : Byte) :
    (m.write a b).read p = if p = a then b else m.read p := by
  induction m with
  | nil =>
    unfold Memory.write
    split
    · split
      · simp_all [Memory.read]
      · rfl
    · rfl
  | cons d m ih =>
    obtain ⟨hd, hs⟩ := List.pairwise_cons.1 hm
    unfold Memory.write
    split
    · rename_i hlt
      split
      · split
        · subst_vars
          refine Memory.read_of_above ?_
          intro c hc
          rcases List.mem_cons.1 hc with rfl | hc
          · exact hlt
          · have := hd c hc; omega
        · rfl
      · simp only [Memory.read]
    · split
      · rename_i heq
        subst heq
        split
        · rename_i hb
          by_cases hp : p = d.1
          · subst hp
            rw [if_pos rfl, hb]
            exact Memory.read_of_above hd
          · simp [Memory.read, hp]
        · simp only [Memory.read]
          split <;> simp_all
      · simp only [Memory.read, ih hs]
        split <;> split <;> simp_all

theorem Memory.read_write_same {m : Memory} (hm : m.wf) (a : Nat) (b : Byte) : (m.write a b).read a = b := by
  simp [Memory.read_write hm.1]

theorem Memory.read_write_ne {m : Memory} (hm : m.wf) {a p : Nat} (h : p ≠ a) (b : Byte) :
    (m.write a b).read p = m.read p := by
  simp [Memory.read_write hm.1, h]

/-- Reading after a store: the stored byte inside, the old one outside. -/
theorem Memory.read_store {m : Memory} (hm : m.wf) {a : Nat} {bs : List Byte} (h : a + bs.length ≤ 4096) (p : Nat) :
    (m.store a bs).read p = if a ≤ p ∧ p < a + bs.length then bs.getD (p - a) 0 else m.read p := by
  induction bs generalizing m a with
  | nil => simp [Memory.store]
  | cons b bs ih =>
    simp only [List.length_cons] at h ⊢
    unfold Memory.store
    rw [ih (Memory.write_wf hm (by omega) b) (by omega), Memory.read_write hm.1]
    by_cases hp : p = a
    · subst hp
      rw [if_neg (by omega), if_pos rfl, if_pos (by omega)]
      simp
    · by_cases hin : a + 1 ≤ p ∧ p < a + 1 + bs.length
      · rw [if_pos hin, if_pos (by omega)]
        obtain ⟨k, rfl⟩ : ∃ k, p = a + 1 + k := ⟨p - (a + 1), by omega⟩
        have e1 : a + 1 + k - (a + 1) = k := by omega
        have e2 : a + 1 + k - a = k + 1 := by omega
        rw [e1, e2]
        simp
      · rw [if_neg hin, if_neg hp, if_neg (by omega)]

theorem Memory.ofContents_wf (f : Nat → Byte) : (Memory.ofContents f).wf := by
  constructor
  · unfold Memory.ofContents
    rw [List.pairwise_filterMap]
    refine List.Pairwise.imp ?_ List.pairwise_lt_range
    intro a b hab c hc d hd
    simp only [Option.ite_none_left_eq_some, Option.some.injEq] at hc hd
    obtain ⟨-, rfl⟩ := hc
    obtain ⟨-, rfl⟩ := hd
    exact hab
  · intro c hc
    unfold Memory.ofContents at hc
    simp only [List.mem_filterMap, List.mem_range, Option.ite_none_left_eq_some, Option.some.injEq] at hc
    obtain ⟨a, ha, hne, rfl⟩ := hc
    exact ⟨ha, hne⟩

/-- A listed entry of a memory of rising addresses is what its address reads as. -/
theorem Memory.read_of_mem {m : Memory} (hm : m.Pairwise (fun c d => c.1 < d.1)) {c : Host.Cell} (h : c ∈ m) :
    m.read c.1 = c.2 := by
  induction m with
  | nil => simp at h
  | cons d m ih =>
    obtain ⟨hd, hs⟩ := List.pairwise_cons.1 hm
    simp only [Memory.read]
    rcases List.mem_cons.1 h with rfl | h
    · simp
    · rw [if_neg (by have := hd c h; omega)]
      exact ih hs h

/-- An address that no entry names reads as unlisted. -/
theorem Memory.read_of_not_listed {m : Memory} {a : Nat} (h : ∀ c ∈ m, c.1 ≠ a) : m.read a = Memory.unlisted a := by
  induction m with
  | nil => rfl
  | cons d m ih =>
    simp only [Memory.read]
    rw [if_neg (fun e => h d (by simp) e.symm)]
    exact ih (fun c hc => h c (by simp [hc]))

/-- The memory built from given contents reads as them, at every address of memory. -/
theorem Memory.read_ofContents (f : Nat → Byte) {a : Nat} (ha : a < 4096) : (Memory.ofContents f).read a = f a := by
  by_cases h : f a = Memory.unlisted a
  · rw [h]
    apply Memory.read_of_not_listed
    intro c hc e
    subst e
    unfold Memory.ofContents at hc
    simp only [List.mem_filterMap, List.mem_range, Option.ite_none_left_eq_some, Option.some.injEq] at hc
    obtain ⟨b, -, hne, rfl⟩ := hc
    exact hne h
  · exact Memory.read_of_mem (c := (a, f a)) (Memory.ofContents_wf f).1 (by
      unfold Memory.ofContents
      simp only [List.mem_filterMap, List.mem_range, Option.ite_none_left_eq_some, Option.some.injEq]
      exact ⟨a, ha, h, rfl⟩)

end Sys2Proof.Machine
end

