-- ==== Sys2Proof/Laws/State.lean ====
section
/-! SUPPORT. Laws/State.lean: for each update of the state (Machine/Ops.lean), what each field is after it, by rfl, so that no
proof unfolds a record update. -/

namespace Sys2Proof.Machine

variable (s : State)

@[simp] theorem State.setV_v (x : Reg) (b : Byte) : (s.setV x b).v = s.v.set x b := rfl
@[simp] theorem State.setV_I (x : Reg) (b : Byte) : (s.setV x b).I = s.I := rfl
@[simp] theorem State.setV_pc (x : Reg) (b : Byte) : (s.setV x b).pc = s.pc := rfl
@[simp] theorem State.setV_stack (x : Reg) (b : Byte) : (s.setV x b).stack = s.stack := rfl
@[simp] theorem State.setV_sp (x : Reg) (b : Byte) : (s.setV x b).sp = s.sp := rfl
@[simp] theorem State.setV_dt (x : Reg) (b : Byte) : (s.setV x b).dt = s.dt := rfl
@[simp] theorem State.setV_st (x : Reg) (b : Byte) : (s.setV x b).st = s.st := rfl
@[simp] theorem State.setV_fb (x : Reg) (b : Byte) : (s.setV x b).fb = s.fb := rfl
@[simp] theorem State.setV_dirty (x : Reg) (b : Byte) : (s.setV x b).dirty = s.dirty := rfl
@[simp] theorem State.setV_keys (x : Reg) (b : Byte) : (s.setV x b).keys = s.keys := rfl
@[simp] theorem State.setV_fault (x : Reg) (b : Byte) : (s.setV x b).fault = s.fault := rfl
@[simp] theorem State.setV_mem (x : Reg) (b : Byte) : (s.setV x b).mem = s.mem := rfl
@[simp] theorem State.setV_keyAnswers (x : Reg) (b : Byte) : (s.setV x b).keyAnswers = s.keyAnswers := rfl
@[simp] theorem State.setV_rndSupply (x : Reg) (b : Byte) : (s.setV x b).rndSupply = s.rndSupply := rfl
@[simp] theorem State.setV_rndDraws (x : Reg) (b : Byte) : (s.setV x b).rndDraws = s.rndDraws := rfl
@[simp] theorem State.setV_byte (x : Reg) (b : Byte) (p : Nat) : (s.setV x b).byte p = s.byte p := rfl

@[simp] theorem State.setI_v (w : Word) : (s.setI w).v = s.v := rfl
@[simp] theorem State.setI_I (w : Word) : (s.setI w).I = w := rfl
@[simp] theorem State.setI_pc (w : Word) : (s.setI w).pc = s.pc := rfl
@[simp] theorem State.setI_stack (w : Word) : (s.setI w).stack = s.stack := rfl
@[simp] theorem State.setI_sp (w : Word) : (s.setI w).sp = s.sp := rfl
@[simp] theorem State.setI_dt (w : Word) : (s.setI w).dt = s.dt := rfl
@[simp] theorem State.setI_st (w : Word) : (s.setI w).st = s.st := rfl
@[simp] theorem State.setI_fb (w : Word) : (s.setI w).fb = s.fb := rfl
@[simp] theorem State.setI_dirty (w : Word) : (s.setI w).dirty = s.dirty := rfl
@[simp] theorem State.setI_keys (w : Word) : (s.setI w).keys = s.keys := rfl
@[simp] theorem State.setI_fault (w : Word) : (s.setI w).fault = s.fault := rfl
@[simp] theorem State.setI_mem (w : Word) : (s.setI w).mem = s.mem := rfl
@[simp] theorem State.setI_keyAnswers (w : Word) : (s.setI w).keyAnswers = s.keyAnswers := rfl
@[simp] theorem State.setI_rndSupply (w : Word) : (s.setI w).rndSupply = s.rndSupply := rfl
@[simp] theorem State.setI_rndDraws (w : Word) : (s.setI w).rndDraws = s.rndDraws := rfl
@[simp] theorem State.setI_getV (w : Word) (r : Reg) : (s.setI w).getV r = s.getV r := rfl
@[simp] theorem State.setI_byte (w : Word) (p : Nat) : (s.setI w).byte p = s.byte p := rfl

@[simp] theorem State.jump_v (w : Word) : (s.jump w).v = s.v := rfl
@[simp] theorem State.jump_I (w : Word) : (s.jump w).I = s.I := rfl
@[simp] theorem State.jump_pc (w : Word) : (s.jump w).pc = w := rfl
@[simp] theorem State.jump_stack (w : Word) : (s.jump w).stack = s.stack := rfl
@[simp] theorem State.jump_sp (w : Word) : (s.jump w).sp = s.sp := rfl
@[simp] theorem State.jump_dt (w : Word) : (s.jump w).dt = s.dt := rfl
@[simp] theorem State.jump_st (w : Word) : (s.jump w).st = s.st := rfl
@[simp] theorem State.jump_fb (w : Word) : (s.jump w).fb = s.fb := rfl
@[simp] theorem State.jump_dirty (w : Word) : (s.jump w).dirty = s.dirty := rfl
@[simp] theorem State.jump_keys (w : Word) : (s.jump w).keys = s.keys := rfl
@[simp] theorem State.jump_fault (w : Word) : (s.jump w).fault = s.fault := rfl
@[simp] theorem State.jump_mem (w : Word) : (s.jump w).mem = s.mem := rfl
@[simp] theorem State.jump_keyAnswers (w : Word) : (s.jump w).keyAnswers = s.keyAnswers := rfl
@[simp] theorem State.jump_rndSupply (w : Word) : (s.jump w).rndSupply = s.rndSupply := rfl
@[simp] theorem State.jump_rndDraws (w : Word) : (s.jump w).rndDraws = s.rndDraws := rfl
@[simp] theorem State.jump_getV (w : Word) (r : Reg) : (s.jump w).getV r = s.getV r := rfl
@[simp] theorem State.jump_byte (w : Word) (p : Nat) : (s.jump w).byte p = s.byte p := rfl

@[simp] theorem State.advance_v : (s.advance).v = s.v := rfl
@[simp] theorem State.advance_I : (s.advance).I = s.I := rfl
@[simp] theorem State.advance_pc : (s.advance).pc = s.pc + 2 := rfl
@[simp] theorem State.advance_stack : (s.advance).stack = s.stack := rfl
@[simp] theorem State.advance_sp : (s.advance).sp = s.sp := rfl
@[simp] theorem State.advance_dt : (s.advance).dt = s.dt := rfl
@[simp] theorem State.advance_st : (s.advance).st = s.st := rfl
@[simp] theorem State.advance_fb : (s.advance).fb = s.fb := rfl
@[simp] theorem State.advance_dirty : (s.advance).dirty = s.dirty := rfl
@[simp] theorem State.advance_keys : (s.advance).keys = s.keys := rfl
@[simp] theorem State.advance_fault : (s.advance).fault = s.fault := rfl
@[simp] theorem State.advance_mem : (s.advance).mem = s.mem := rfl
@[simp] theorem State.advance_keyAnswers : (s.advance).keyAnswers = s.keyAnswers := rfl
@[simp] theorem State.advance_rndSupply : (s.advance).rndSupply = s.rndSupply := rfl
@[simp] theorem State.advance_rndDraws : (s.advance).rndDraws = s.rndDraws := rfl
@[simp] theorem State.advance_getV (r : Reg) : (s.advance).getV r = s.getV r := rfl
@[simp] theorem State.advance_byte (p : Nat) : (s.advance).byte p = s.byte p := rfl

@[simp] theorem State.skipIf_v (c : Bool) : (s.skipIf c).v = s.v := rfl
@[simp] theorem State.skipIf_I (c : Bool) : (s.skipIf c).I = s.I := rfl
@[simp] theorem State.skipIf_pc (c : Bool) : (s.skipIf c).pc = s.pc + (if c then 4 else 2) := rfl
@[simp] theorem State.skipIf_stack (c : Bool) : (s.skipIf c).stack = s.stack := rfl
@[simp] theorem State.skipIf_sp (c : Bool) : (s.skipIf c).sp = s.sp := rfl
@[simp] theorem State.skipIf_dt (c : Bool) : (s.skipIf c).dt = s.dt := rfl
@[simp] theorem State.skipIf_st (c : Bool) : (s.skipIf c).st = s.st := rfl
@[simp] theorem State.skipIf_fb (c : Bool) : (s.skipIf c).fb = s.fb := rfl
@[simp] theorem State.skipIf_dirty (c : Bool) : (s.skipIf c).dirty = s.dirty := rfl
@[simp] theorem State.skipIf_keys (c : Bool) : (s.skipIf c).keys = s.keys := rfl
@[simp] theorem State.skipIf_fault (c : Bool) : (s.skipIf c).fault = s.fault := rfl
@[simp] theorem State.skipIf_mem (c : Bool) : (s.skipIf c).mem = s.mem := rfl
@[simp] theorem State.skipIf_keyAnswers (c : Bool) : (s.skipIf c).keyAnswers = s.keyAnswers := rfl
@[simp] theorem State.skipIf_rndSupply (c : Bool) : (s.skipIf c).rndSupply = s.rndSupply := rfl
@[simp] theorem State.skipIf_rndDraws (c : Bool) : (s.skipIf c).rndDraws = s.rndDraws := rfl
@[simp] theorem State.skipIf_getV (c : Bool) (r : Reg) : (s.skipIf c).getV r = s.getV r := rfl
@[simp] theorem State.skipIf_byte (c : Bool) (p : Nat) : (s.skipIf c).byte p = s.byte p := rfl

@[simp] theorem State.push_v (w : Word) (free : s.sp.val < 16) : (s.push w free).v = s.v := rfl
@[simp] theorem State.push_I (w : Word) (free : s.sp.val < 16) : (s.push w free).I = s.I := rfl
@[simp] theorem State.push_pc (w : Word) (free : s.sp.val < 16) : (s.push w free).pc = s.pc := rfl
@[simp] theorem State.push_stack (w : Word) (free : s.sp.val < 16) : (s.push w free).stack = s.stack.set s.sp.val w free := rfl
@[simp] theorem State.push_sp (w : Word) (free : s.sp.val < 16) : (s.push w free).sp = ⟨s.sp.val + 1, by omega⟩ := rfl
@[simp] theorem State.push_dt (w : Word) (free : s.sp.val < 16) : (s.push w free).dt = s.dt := rfl
@[simp] theorem State.push_st (w : Word) (free : s.sp.val < 16) : (s.push w free).st = s.st := rfl
@[simp] theorem State.push_fb (w : Word) (free : s.sp.val < 16) : (s.push w free).fb = s.fb := rfl
@[simp] theorem State.push_dirty (w : Word) (free : s.sp.val < 16) : (s.push w free).dirty = s.dirty := rfl
@[simp] theorem State.push_keys (w : Word) (free : s.sp.val < 16) : (s.push w free).keys = s.keys := rfl
@[simp] theorem State.push_fault (w : Word) (free : s.sp.val < 16) : (s.push w free).fault = s.fault := rfl
@[simp] theorem State.push_mem (w : Word) (free : s.sp.val < 16) : (s.push w free).mem = s.mem := rfl
@[simp] theorem State.push_keyAnswers (w : Word) (free : s.sp.val < 16) : (s.push w free).keyAnswers = s.keyAnswers := rfl
@[simp] theorem State.push_rndSupply (w : Word) (free : s.sp.val < 16) : (s.push w free).rndSupply = s.rndSupply := rfl
@[simp] theorem State.push_rndDraws (w : Word) (free : s.sp.val < 16) : (s.push w free).rndDraws = s.rndDraws := rfl
@[simp] theorem State.push_getV (w : Word) (free : s.sp.val < 16) (r : Reg) : (s.push w free).getV r = s.getV r := rfl
@[simp] theorem State.push_byte (w : Word) (free : s.sp.val < 16) (p : Nat) : (s.push w free).byte p = s.byte p := rfl

@[simp] theorem State.drop_v : (s.drop).v = s.v := rfl
@[simp] theorem State.drop_I : (s.drop).I = s.I := rfl
@[simp] theorem State.drop_pc : (s.drop).pc = s.pc := rfl
@[simp] theorem State.drop_stack : (s.drop).stack = s.stack := rfl
@[simp] theorem State.drop_sp : (s.drop).sp = ⟨s.sp.val - 1, by omega⟩ := rfl
@[simp] theorem State.drop_dt : (s.drop).dt = s.dt := rfl
@[simp] theorem State.drop_st : (s.drop).st = s.st := rfl
@[simp] theorem State.drop_fb : (s.drop).fb = s.fb := rfl
@[simp] theorem State.drop_dirty : (s.drop).dirty = s.dirty := rfl
@[simp] theorem State.drop_keys : (s.drop).keys = s.keys := rfl
@[simp] theorem State.drop_fault : (s.drop).fault = s.fault := rfl
@[simp] theorem State.drop_mem : (s.drop).mem = s.mem := rfl
@[simp] theorem State.drop_keyAnswers : (s.drop).keyAnswers = s.keyAnswers := rfl
@[simp] theorem State.drop_rndSupply : (s.drop).rndSupply = s.rndSupply := rfl
@[simp] theorem State.drop_rndDraws : (s.drop).rndDraws = s.rndDraws := rfl
@[simp] theorem State.drop_getV (r : Reg) : (s.drop).getV r = s.getV r := rfl
@[simp] theorem State.drop_byte (p : Nat) : (s.drop).byte p = s.byte p := rfl

@[simp] theorem State.setDt_v (b : Byte) : (s.setDt b).v = s.v := rfl
@[simp] theorem State.setDt_I (b : Byte) : (s.setDt b).I = s.I := rfl
@[simp] theorem State.setDt_pc (b : Byte) : (s.setDt b).pc = s.pc := rfl
@[simp] theorem State.setDt_stack (b : Byte) : (s.setDt b).stack = s.stack := rfl
@[simp] theorem State.setDt_sp (b : Byte) : (s.setDt b).sp = s.sp := rfl
@[simp] theorem State.setDt_dt (b : Byte) : (s.setDt b).dt = b := rfl
@[simp] theorem State.setDt_st (b : Byte) : (s.setDt b).st = s.st := rfl
@[simp] theorem State.setDt_fb (b : Byte) : (s.setDt b).fb = s.fb := rfl
@[simp] theorem State.setDt_dirty (b : Byte) : (s.setDt b).dirty = s.dirty := rfl
@[simp] theorem State.setDt_keys (b : Byte) : (s.setDt b).keys = s.keys := rfl
@[simp] theorem State.setDt_fault (b : Byte) : (s.setDt b).fault = s.fault := rfl
@[simp] theorem State.setDt_mem (b : Byte) : (s.setDt b).mem = s.mem := rfl
@[simp] theorem State.setDt_keyAnswers (b : Byte) : (s.setDt b).keyAnswers = s.keyAnswers := rfl
@[simp] theorem State.setDt_rndSupply (b : Byte) : (s.setDt b).rndSupply = s.rndSupply := rfl
@[simp] theorem State.setDt_rndDraws (b : Byte) : (s.setDt b).rndDraws = s.rndDraws := rfl
@[simp] theorem State.setDt_getV (b : Byte) (r : Reg) : (s.setDt b).getV r = s.getV r := rfl
@[simp] theorem State.setDt_byte (b : Byte) (p : Nat) : (s.setDt b).byte p = s.byte p := rfl

@[simp] theorem State.setSt_v (b : Byte) : (s.setSt b).v = s.v := rfl
@[simp] theorem State.setSt_I (b : Byte) : (s.setSt b).I = s.I := rfl
@[simp] theorem State.setSt_pc (b : Byte) : (s.setSt b).pc = s.pc := rfl
@[simp] theorem State.setSt_stack (b : Byte) : (s.setSt b).stack = s.stack := rfl
@[simp] theorem State.setSt_sp (b : Byte) : (s.setSt b).sp = s.sp := rfl
@[simp] theorem State.setSt_dt (b : Byte) : (s.setSt b).dt = s.dt := rfl
@[simp] theorem State.setSt_st (b : Byte) : (s.setSt b).st = b := rfl
@[simp] theorem State.setSt_fb (b : Byte) : (s.setSt b).fb = s.fb := rfl
@[simp] theorem State.setSt_dirty (b : Byte) : (s.setSt b).dirty = s.dirty := rfl
@[simp] theorem State.setSt_keys (b : Byte) : (s.setSt b).keys = s.keys := rfl
@[simp] theorem State.setSt_fault (b : Byte) : (s.setSt b).fault = s.fault := rfl
@[simp] theorem State.setSt_mem (b : Byte) : (s.setSt b).mem = s.mem := rfl
@[simp] theorem State.setSt_keyAnswers (b : Byte) : (s.setSt b).keyAnswers = s.keyAnswers := rfl
@[simp] theorem State.setSt_rndSupply (b : Byte) : (s.setSt b).rndSupply = s.rndSupply := rfl
@[simp] theorem State.setSt_rndDraws (b : Byte) : (s.setSt b).rndDraws = s.rndDraws := rfl
@[simp] theorem State.setSt_getV (b : Byte) (r : Reg) : (s.setSt b).getV r = s.getV r := rfl
@[simp] theorem State.setSt_byte (b : Byte) (p : Nat) : (s.setSt b).byte p = s.byte p := rfl

@[simp] theorem State.store_v (a : Nat) (bs : List Byte) : (s.store a bs).v = s.v := rfl
@[simp] theorem State.store_I (a : Nat) (bs : List Byte) : (s.store a bs).I = s.I := rfl
@[simp] theorem State.store_pc (a : Nat) (bs : List Byte) : (s.store a bs).pc = s.pc := rfl
@[simp] theorem State.store_stack (a : Nat) (bs : List Byte) : (s.store a bs).stack = s.stack := rfl
@[simp] theorem State.store_sp (a : Nat) (bs : List Byte) : (s.store a bs).sp = s.sp := rfl
@[simp] theorem State.store_dt (a : Nat) (bs : List Byte) : (s.store a bs).dt = s.dt := rfl
@[simp] theorem State.store_st (a : Nat) (bs : List Byte) : (s.store a bs).st = s.st := rfl
@[simp] theorem State.store_fb (a : Nat) (bs : List Byte) : (s.store a bs).fb = s.fb := rfl
@[simp] theorem State.store_dirty (a : Nat) (bs : List Byte) : (s.store a bs).dirty = s.dirty := rfl
@[simp] theorem State.store_keys (a : Nat) (bs : List Byte) : (s.store a bs).keys = s.keys := rfl
@[simp] theorem State.store_fault (a : Nat) (bs : List Byte) : (s.store a bs).fault = s.fault := rfl
@[simp] theorem State.store_mem (a : Nat) (bs : List Byte) : (s.store a bs).mem = s.mem.store a bs := rfl
@[simp] theorem State.store_keyAnswers (a : Nat) (bs : List Byte) : (s.store a bs).keyAnswers = s.keyAnswers := rfl
@[simp] theorem State.store_rndSupply (a : Nat) (bs : List Byte) : (s.store a bs).rndSupply = s.rndSupply := rfl
@[simp] theorem State.store_rndDraws (a : Nat) (bs : List Byte) : (s.store a bs).rndDraws = s.rndDraws := rfl
@[simp] theorem State.store_getV (a : Nat) (bs : List Byte) (r : Reg) : (s.store a bs).getV r = s.getV r := rfl

@[simp] theorem State.raise_v (c : Cause) (op : Word) (n : Nat) : (s.raise c op n).v = s.v := rfl
@[simp] theorem State.raise_I (c : Cause) (op : Word) (n : Nat) : (s.raise c op n).I = s.I := rfl
@[simp] theorem State.raise_pc (c : Cause) (op : Word) (n : Nat) : (s.raise c op n).pc = s.pc := rfl
@[simp] theorem State.raise_stack (c : Cause) (op : Word) (n : Nat) : (s.raise c op n).stack = s.stack := rfl
@[simp] theorem State.raise_sp (c : Cause) (op : Word) (n : Nat) : (s.raise c op n).sp = s.sp := rfl
@[simp] theorem State.raise_dt (c : Cause) (op : Word) (n : Nat) : (s.raise c op n).dt = s.dt := rfl
@[simp] theorem State.raise_st (c : Cause) (op : Word) (n : Nat) : (s.raise c op n).st = s.st := rfl
@[simp] theorem State.raise_fb (c : Cause) (op : Word) (n : Nat) : (s.raise c op n).fb = s.fb := rfl
@[simp] theorem State.raise_dirty (c : Cause) (op : Word) (n : Nat) : (s.raise c op n).dirty = s.dirty := rfl
@[simp] theorem State.raise_keys (c : Cause) (op : Word) (n : Nat) : (s.raise c op n).keys = s.keys := rfl
@[simp] theorem State.raise_fault (c : Cause) (op : Word) (n : Nat) : (s.raise c op n).fault = ⟨true, c.code, s.pc, op, BitVec.ofNat 17 n⟩ := rfl
@[simp] theorem State.raise_mem (c : Cause) (op : Word) (n : Nat) : (s.raise c op n).mem = s.mem := rfl
@[simp] theorem State.raise_keyAnswers (c : Cause) (op : Word) (n : Nat) : (s.raise c op n).keyAnswers = s.keyAnswers := rfl
@[simp] theorem State.raise_rndSupply (c : Cause) (op : Word) (n : Nat) : (s.raise c op n).rndSupply = s.rndSupply := rfl
@[simp] theorem State.raise_rndDraws (c : Cause) (op : Word) (n : Nat) : (s.raise c op n).rndDraws = s.rndDraws := rfl
@[simp] theorem State.raise_getV (c : Cause) (op : Word) (n : Nat) (r : Reg) : (s.raise c op n).getV r = s.getV r := rfl
@[simp] theorem State.raise_byte (c : Cause) (op : Word) (n : Nat) (p : Nat) : (s.raise c op n).byte p = s.byte p := rfl

@[simp] theorem State.tick_v : (s.tick).v = s.v := rfl
@[simp] theorem State.tick_I : (s.tick).I = s.I := rfl
@[simp] theorem State.tick_pc : (s.tick).pc = s.pc := rfl
@[simp] theorem State.tick_stack : (s.tick).stack = s.stack := rfl
@[simp] theorem State.tick_sp : (s.tick).sp = s.sp := rfl
@[simp] theorem State.tick_dt : (s.tick).dt = countDown s.dt := rfl
@[simp] theorem State.tick_st : (s.tick).st = countDown s.st := rfl
@[simp] theorem State.tick_fb : (s.tick).fb = s.fb := rfl
@[simp] theorem State.tick_dirty : (s.tick).dirty = s.dirty := rfl
@[simp] theorem State.tick_keys : (s.tick).keys = s.keys := rfl
@[simp] theorem State.tick_fault : (s.tick).fault = s.fault := rfl
@[simp] theorem State.tick_mem : (s.tick).mem = s.mem := rfl
@[simp] theorem State.tick_keyAnswers : (s.tick).keyAnswers = s.keyAnswers := rfl
@[simp] theorem State.tick_rndSupply : (s.tick).rndSupply = s.rndSupply := rfl
@[simp] theorem State.tick_rndDraws : (s.tick).rndDraws = s.rndDraws := rfl
@[simp] theorem State.tick_getV (r : Reg) : (s.tick).getV r = s.getV r := rfl
@[simp] theorem State.tick_byte (p : Nat) : (s.tick).byte p = s.byte p := rfl

theorem State.getV_setV (x r : Reg) (b : Byte) : (s.setV x b).getV r = if r = x then b else s.getV r := by
  unfold State.getV State.setV
  by_cases h : r = x
  · simp [h]
  · have : x.val ≠ r.val := fun e => h (Fin.ext e.symm)
    simp [h, this]

@[simp] theorem State.getV_setV_same (x : Reg) (b : Byte) : (s.setV x b).getV x = b := by simp [State.getV_setV]

theorem State.getV_setV_ne {x r : Reg} (h : r ≠ x) (b : Byte) : (s.setV x b).getV r = s.getV r := by
  simp [State.getV_setV, h]

/-- The registers are what reading them gives. -/
theorem State.v_ext {s t : State} (h : ∀ r, t.getV r = s.getV r) : t.v = s.v := by
  apply Vector.ext
  intro k hk
  exact h ⟨k, hk⟩

@[simp] theorem State.store_byte (a : Nat) (bs : List Byte) (p : Nat) :
    (s.store a bs).byte p = (s.mem.store a bs).read p := rfl

end Sys2Proof.Machine
end

