-- ==== Sys2Proof/Laws/Ops.lean ====
section
/-! SUPPORT. Laws/Ops.lean: for each shared operation of Machine/Ops.lean, what it can do, said once. -/

namespace Sys2Proof.Machine

/-- The store checks pass exactly when every address lies in 80..4095 (R55). -/
theorem checkStores_eq_none {a n : Nat} : checkStores a n = none ↔ n = 0 ∨ (80 ≤ a ∧ a + n ≤ 4096) := by
  induction n generalizing a with
  | zero => simp [checkStores]
  | succ n ih =>
    unfold checkStores
    split
    · simp; omega
    · split
      · simp; omega
      · rw [ih]; omega

/-- The first store check that fails (R55, R182): in at most 16 consecutive addresses only one kind can fail. -/
theorem checkStores_eq_some {a n : Nat} {c : Cause} {p : Nat} (hn : n ≤ 16) :
    checkStores a n = some (c, p) ↔
      0 < n ∧ ((c = .glyphWrite ∧ a < 80 ∧ p = a) ∨ (c = .dataOutOfRange ∧ 4096 < a + n ∧ p = max a 4096)) := by
  induction n generalizing a with
  | zero => simp [checkStores]
  | succ n ih =>
    unfold checkStores
    split
    · simp only [Option.some.injEq, Prod.mk.injEq]
      constructor
      · rintro ⟨rfl, rfl⟩
        exact ⟨by omega, .inr ⟨rfl, by omega, by omega⟩⟩
      · rintro ⟨-, ⟨rfl, h, rfl⟩ | ⟨rfl, h, rfl⟩⟩
        · omega
        · exact ⟨rfl, by omega⟩
    · split
      · simp only [Option.some.injEq, Prod.mk.injEq]
        constructor
        · rintro ⟨rfl, rfl⟩
          exact ⟨by omega, .inl ⟨rfl, by omega, rfl⟩⟩
        · rintro ⟨-, ⟨rfl, h, rfl⟩ | ⟨rfl, h, rfl⟩⟩
          · exact ⟨rfl, rfl⟩
          · omega
      · rw [ih (by omega)]
        constructor
        · rintro ⟨hn, ⟨rfl, h, rfl⟩ | ⟨rfl, h, rfl⟩⟩
          · omega
          · exact ⟨by omega, .inr ⟨rfl, by omega, by omega⟩⟩
        · rintro ⟨hn, ⟨rfl, h, rfl⟩ | ⟨rfl, h, rfl⟩⟩
          · omega
          · exact ⟨by omega, .inr ⟨rfl, by omega, by omega⟩⟩

/-- The read checks pass exactly when every address is at most 4095 (R54). -/
theorem checkLoads_eq_none {a n : Nat} : checkLoads a n = none ↔ n = 0 ∨ a + n ≤ 4096 := by
  induction n generalizing a with
  | zero => simp [checkLoads]
  | succ n ih =>
    unfold checkLoads
    split
    · simp; omega
    · rw [ih]; omega

/-- The first read check that fails (R54). -/
theorem checkLoads_eq_some {a n p : Nat} : checkLoads a n = some p ↔ 0 < n ∧ 4096 < a + n ∧ p = max a 4096 := by
  induction n generalizing a with
  | zero => simp [checkLoads]
  | succ n ih =>
    unfold checkLoads
    split
    · simp only [Option.some.injEq]; omega
    · rw [ih]; omega

theorem State.regsUpTo_length (s : State) (x : Reg) : (s.regsUpTo x).length = x.val + 1 := by
  simp [State.regsUpTo]

/-- The k-th byte that FX55 stores is V[k] (R145). -/
theorem State.regsUpTo_getD (s : State) (x k : Reg) (h : k.val ≤ x.val) : (s.regsUpTo x).getD k.val 0 = s.getV k := by
  have hk : k.val < x.val + 1 := by omega
  simp [State.regsUpTo, List.getD_eq_getElem?_getD, hk, State.getV]

/-- Loading registers changes the register file and nothing else. -/
theorem State.loadRegs_eq (s : State) (a n : Nat) : ∃ w, s.loadRegs a n = { s with v := w } := by
  induction n with
  | zero => exact ⟨s.v, rfl⟩
  | succ n ih =>
    obtain ⟨w, hw⟩ := ih
    unfold State.loadRegs
    rw [hw]
    exact ⟨_, rfl⟩

/-- A register after loading: the byte of memory below the count, its old value above (R146). -/
theorem State.loadRegs_getV (s : State) (a n : Nat) (r : Reg) :
    (s.loadRegs a n).getV r = if r.val < n then s.byte (a + r.val) else s.getV r := by
  induction n with
  | zero => simp [State.loadRegs]
  | succ n ih =>
    obtain ⟨w, hw⟩ := s.loadRegs_eq a n
    have hb : ∀ p, (s.loadRegs a n).byte p = s.byte p := by intro p; rw [hw]; rfl
    unfold State.loadRegs
    simp only [State.getV] at ih ⊢
    simp only [hb]
    simp only [Fin.getElem_fin] at ih ⊢
    rw [Vector.getElem_setIfInBounds]
    by_cases h : n = r.val
    · simp [h]
    · rw [if_neg h, ih]
      by_cases h' : r.val < n
      · rw [if_pos h', if_pos (by omega)]
      · rw [if_neg h', if_neg (by omega)]

/-- A pixel after one toggle (R152). -/
theorem Framebuffer.pixel_flip (f : Framebuffer) {p : Nat} (hp : p < 2048) (q : Nat) :
    (f.flip p).pixel q = if q = p then !f.pixel p else f.pixel q := by
  unfold Framebuffer.pixel Framebuffer.flip
  have hrow : p / 64 < 32 := by omega
  by_cases hr : q / 64 = p / 64
  · rw [hr]
    simp only [Vector.getElem?_setIfInBounds_self, hrow, if_true, Option.getD_some]
    simp only [BitVec.getLsbD_xor]
    have hq : q % 64 < 64 := by omega
    have hone : (1#64 <<< (p % 64)).getLsbD (q % 64) = decide (q % 64 = p % 64) := by
      simp only [BitVec.getLsbD_shiftLeft, BitVec.getLsbD_one, hq]
      by_cases h : q % 64 = p % 64
      · simp [h]
      · by_cases h' : q % 64 < p % 64
        · simp [h, h']
        · have : q % 64 - p % 64 ≠ 0 := by omega
          simp [h, this]
    rw [hone]
    by_cases h : q = p
    · subst h; simp
    · have : q % 64 ≠ p % 64 := by omega
      simp [h, this]
  · have h : q ≠ p := by rintro rfl; exact hr rfl
    rw [Vector.getElem?_setIfInBounds_ne (by omega)]
    simp [h]

theorem countDown_toNat (b : Byte) : (countDown b).toNat = b.toNat - 1 := by
  unfold countDown
  split
  · simp_all
  · rename_i h
    have h0 : b.toNat ≠ 0 := fun e => h (BitVec.eq_of_toNat_eq (by simpa using e))
    have hlt := b.isLt
    have h1 : BitVec.toNat (1 : Byte) = 1 := rfl
    rw [BitVec.toNat_sub, h1]
    omega

theorem Cause.code_ne_zero (c : Cause) : c.code ≠ 0 := by cases c <;> decide

theorem Cause.code_injective {c d : Cause} (h : c.code = d.code) : c = d := by
  cases c <;> cases d <;> first | rfl | (revert h; decide)

/-- Drawing a random byte changes the model's random fields and nothing else. -/
theorem State.drawRandom_state (s : State) :
    ∃ l n, s.drawRandom.2 = { s with rndSupply := l, rndDraws := n } := by
  unfold State.drawRandom
  split
  · exact ⟨_, _, rfl⟩
  · exact ⟨_, _, rfl⟩

end Sys2Proof.Machine
end

