-- ==== Sys2Proof/Laws/Display.lean ====
section
/-! SUPPORT. Laws/Display.lean: what the sprite operations of Machine/Ops.lean do (spec/45_display.md R152, R153), said once: which
targets a sprite has and in which order, the first one off the grid, and the framebuffer and the collision after drawing. -/

namespace Sys2Proof.Machine

/-- The scan order of R152 on targets: rows ascending, and within a row from left to right. -/
def scannedBefore (t u : Nat × Nat) : Prop := t.2 < u.2 ∨ (t.2 = u.2 ∧ t.1 < u.1)

/-- The targets of a sprite are where its set bits land. -/
theorem mem_spriteTargets {m : Memory} {a x0 y0 n c r : Nat} :
    (c, r) ∈ spriteTargets m a x0 y0 n ↔
      ∃ j < n, ∃ i < 8, (m.read (a + j)).getLsbD (7 - i) = true ∧ c = x0 + i ∧ r = y0 + j := by
  simp only [spriteTargets, List.mem_flatMap, List.mem_range, List.mem_filterMap, Option.ite_none_right_eq_some,
    Option.some.injEq, Prod.mk.injEq]
  constructor <;> rintro ⟨j, hj, i, hi, hb, rfl, rfl⟩ <;> exact ⟨j, hj, i, hi, hb, rfl, rfl⟩

/-- The targets come in scan order, each once. -/
theorem spriteTargets_inOrder (m : Memory) (a x0 y0 n : Nat) : (spriteTargets m a x0 y0 n).Pairwise scannedBefore := by
  unfold spriteTargets
  rw [List.pairwise_flatMap]
  constructor
  · intro j _
    rw [List.pairwise_filterMap]
    refine List.Pairwise.imp ?_ List.pairwise_lt_range
    intro i k hik t ht u hu
    simp only [Option.ite_none_right_eq_some, Option.some.injEq] at ht hu
    obtain ⟨-, rfl⟩ := ht
    obtain ⟨-, rfl⟩ := hu
    exact .inr ⟨rfl, Nat.add_lt_add_left hik x0⟩
  · refine List.Pairwise.imp ?_ List.pairwise_lt_range
    intro j k hjk t ht u hu
    simp only [List.mem_filterMap, Option.ite_none_right_eq_some, Option.some.injEq] at ht hu
    obtain ⟨_, -, -, rfl⟩ := ht
    obtain ⟨_, -, -, rfl⟩ := hu
    exact .inl (Nat.add_lt_add_left hjk y0)

/-- The target that faults is the one off the grid that no other off the grid comes before (R153). -/
theorem find_offGrid {ts : List (Nat × Nat)} (hs : ts.Pairwise scannedBefore) {t : Nat × Nat} (ht : t ∈ ts)
    (hoff : offGrid t = true) (hfirst : ∀ u ∈ ts, scannedBefore u t → offGrid u = false) : ts.find? offGrid = some t := by
  induction ts with
  | nil => simp at ht
  | cons u ts ih =>
    obtain ⟨h1, h2⟩ := List.pairwise_cons.1 hs
    rcases List.mem_cons.1 ht with rfl | ht
    · simp [hoff]
    · rw [List.find?_cons, hfirst u (by simp) (h1 t ht)]
      exact ih h2 ht (fun v hv => hfirst v (by simp [hv]))

theorem offGrid_eq_false {t : Nat × Nat} : offGrid t = false ↔ t.1 ≤ 63 ∧ t.2 ≤ 31 := by
  simp [offGrid]

/-- Toggling targets on the grid, each once: a pixel is changed exactly when a target names it, and there is a collision exactly
when there was one before or a target names a pixel that was 1. -/
theorem foldl_toggle {ts : List (Nat × Nat)} (hs : ts.Pairwise scannedBefore) (hg : ∀ t ∈ ts, offGrid t = false)
    (f : Framebuffer) (hit : Bool) :
    (∀ q, (ts.foldl toggle (f, hit)).1.pixel q = true ↔ (f.pixel q = true ↔ ¬ ∃ t ∈ ts, pixelIndex t = q)) ∧
    ((ts.foldl toggle (f, hit)).2 = true ↔ hit = true ∨ ∃ t ∈ ts, f.pixel (pixelIndex t) = true) := by
  induction ts generalizing f hit with
  | nil => simp
  | cons t ts ih =>
    obtain ⟨h1, h2⟩ := List.pairwise_cons.1 hs
    have ht := offGrid_eq_false.1 (hg t (by simp))
    have hp : pixelIndex t < 2048 := by unfold pixelIndex; omega
    have hne : ∀ u ∈ ts, pixelIndex u ≠ pixelIndex t := by
      intro u hu
      have hb := h1 u hu
      have hu := offGrid_eq_false.1 (hg u (by simp [hu]))
      unfold scannedBefore at hb
      unfold pixelIndex
      omega
    obtain ⟨i1, i2⟩ := ih h2 (fun u hu => hg u (by simp [hu])) (f.flip (pixelIndex t)) (hit || f.pixel (pixelIndex t))
    simp only [List.foldl_cons, toggle]
    refine ⟨fun q => ?_, ?_⟩
    · rw [i1, Framebuffer.pixel_flip _ hp]
      by_cases hq : q = pixelIndex t
      · subst hq
        have : ¬ ∃ u ∈ ts, pixelIndex u = pixelIndex t := by rintro ⟨u, hu, e⟩; exact hne u hu e
        simp [this]
      · have e : (∃ u ∈ t :: ts, pixelIndex u = q) ↔ ∃ u ∈ ts, pixelIndex u = q := by
          simp only [List.mem_cons, exists_eq_or_imp, or_iff_right_iff_imp]
          intro e
          exact absurd e.symm hq
        rw [if_neg hq, e]
    · have e : ∀ u ∈ ts, (f.flip (pixelIndex t)).pixel (pixelIndex u) = f.pixel (pixelIndex u) := by
        intro u hu
        rw [Framebuffer.pixel_flip _ hp, if_neg (hne u hu)]
      have e' : (∃ u ∈ ts, (f.flip (pixelIndex t)).pixel (pixelIndex u) = true) ↔ ∃ u ∈ ts, f.pixel (pixelIndex u) = true :=
        exists_congr fun u => and_congr_right fun hu => by rw [e u hu]
      rw [i2, e']
      simp [or_assoc]

/-- FB after a sprite on the grid (R152). -/
theorem drawTargets_pixel {ts : List (Nat × Nat)} (hs : ts.Pairwise scannedBefore) (hg : ∀ t ∈ ts, offGrid t = false)
    (f : Framebuffer) (q : Nat) :
    (drawTargets f ts).1.pixel q = true ↔ (f.pixel q = true ↔ ¬ ∃ t ∈ ts, pixelIndex t = q) :=
  (foldl_toggle hs hg f false).1 q

/-- The collision of a sprite on the grid (R152). -/
theorem drawTargets_hit {ts : List (Nat × Nat)} (hs : ts.Pairwise scannedBefore) (hg : ∀ t ∈ ts, offGrid t = false)
    (f : Framebuffer) : (drawTargets f ts).2 = true ↔ ∃ t ∈ ts, f.pixel (pixelIndex t) = true := by
  have h := (foldl_toggle hs hg f false).2
  simp only [Bool.false_eq_true, false_or] at h
  exact h

/-- Every pixel of a cleared framebuffer is 0 (R151). -/
theorem Framebuffer.pixel_clear (p : Nat) : Framebuffer.pixel (Vector.replicate 32 0) p = false := by
  unfold Framebuffer.pixel
  by_cases h : p / 64 < 32
  · simp [h]
  · rw [Vector.getElem?_eq_none (by omega)]
    simp

end Sys2Proof.Machine
end

