-- ==== Sys2Proof/Laws/Exec.lean ====
section
/-! SUPPORT. Laws/Exec.lean: what any instruction can do to the FAULT record, to memory and to the stack, said once over all of
`exec`, and that an instruction always answers a next state. -/

namespace Sys2Proof.Machine

/-- Every instruction answers a next state: the faults of R180 are next states too. -/
theorem exec_next (i : Instr) (s : State) : ∃ t, exec i s = .next t := by
  cases i
  all_goals simp only [exec]
  case ret => unfold execRet; split <;> exact ⟨_, rfl⟩
  case call => unfold execCall; split <;> exact ⟨_, rfl⟩
  case bcd => unfold execBcd; split <;> exact ⟨_, rfl⟩
  case stRegs => unfold execStRegs; split <;> exact ⟨_, rfl⟩
  case ldRegs => unfold execLdRegs; split <;> exact ⟨_, rfl⟩
  case drw =>
    unfold execDrw
    split
    · exact ⟨_, rfl⟩
    · split <;> exact ⟨_, rfl⟩
  case skp => unfold execSkp; split <;> exact ⟨_, rfl⟩
  case sknp => unfold execSknp; split <;> exact ⟨_, rfl⟩
  case ldVxK => unfold execLdVxK; split <;> exact ⟨_, rfl⟩
  all_goals exact ⟨_, rfl⟩

/-- What an instruction does to FAULT, to memory and to the stack: it raises one fault and changes nothing else; or it leaves
FAULT alone and does one of four things with the rest. -/
theorem exec_cases {i : Instr} {s t : State} (h : exec i s = .next t) :
    (∃ c n, t = s.raise c (encode i) n) ∨
    (t.fault = s.fault ∧
      ((t.mem = s.mem ∧ t.sp = s.sp ∧ t.stack = s.stack) ∨
       (∃ bytes, 80 ≤ s.base ∧ s.base + bytes.length ≤ 4096 ∧ t.mem = s.mem.store s.base bytes ∧ t.sp = s.sp ∧ t.stack = s.stack) ∨
       (i = .ret ∧ t.mem = s.mem ∧ t.sp.val = s.sp.val - 1 ∧ t.stack = s.stack) ∨
       (∃ free : s.sp.val < 16, t.mem = s.mem ∧ t.sp.val = s.sp.val + 1 ∧ t.stack = s.stack.set s.sp.val s.returnAddress free))) := by
  cases i
  all_goals simp only [exec] at h
  case ret =>
    unfold execRet at h
    split at h <;> cases h
    · exact .inl ⟨_, _, rfl⟩
    · exact .inr ⟨rfl, .inr (.inr (.inl ⟨rfl, rfl, rfl, rfl⟩))⟩
  case call =>
    unfold execCall at h
    split at h <;> cases h
    · exact .inr ⟨rfl, .inr (.inr (.inr ⟨‹_›, rfl, rfl, rfl⟩))⟩
    · exact .inl ⟨_, _, rfl⟩
  case bcd x =>
    unfold execBcd at h
    split at h <;> cases h
    · exact .inl ⟨_, _, rfl⟩
    · rename_i hc
      have := checkStores_eq_none.1 hc
      exact .inr ⟨rfl, .inr (.inl ⟨bcdDigits (s.getV x), by omega, by simp [bcdDigits]; omega, rfl, rfl, rfl⟩)⟩
  case stRegs x =>
    unfold execStRegs at h
    split at h <;> cases h
    · exact .inl ⟨_, _, rfl⟩
    · rename_i hc
      have := checkStores_eq_none.1 hc
      unfold regCount at this
      exact .inr ⟨rfl, .inr (.inl ⟨s.regsUpTo x, by omega, by rw [State.regsUpTo_length]; omega, rfl, rfl, rfl⟩)⟩
  case ldRegs x =>
    unfold execLdRegs at h
    split at h <;> cases h
    · exact .inl ⟨_, _, rfl⟩
    · obtain ⟨w, hw⟩ := s.loadRegs_eq s.base (regCount x)
      rw [hw]
      exact .inr ⟨rfl, .inl ⟨rfl, rfl, rfl⟩⟩
  case drw =>
    unfold execDrw at h
    split at h
    · cases h
      exact .inl ⟨_, _, rfl⟩
    · split at h <;> cases h
      · exact .inl ⟨_, _, rfl⟩
      · exact .inr ⟨rfl, .inl ⟨rfl, rfl, rfl⟩⟩
  case skp =>
    unfold execSkp at h
    split at h <;> cases h
    · exact .inl ⟨_, _, rfl⟩
    · exact .inr ⟨rfl, .inl ⟨rfl, rfl, rfl⟩⟩
  case sknp =>
    unfold execSknp at h
    split at h <;> cases h
    · exact .inl ⟨_, _, rfl⟩
    · exact .inr ⟨rfl, .inl ⟨rfl, rfl, rfl⟩⟩
  case ldVxK =>
    unfold execLdVxK at h
    split at h <;> cases h <;> exact .inr ⟨rfl, .inl ⟨rfl, rfl, rfl⟩⟩
  case rnd =>
    cases h
    obtain ⟨l, n, hw⟩ := s.drawRandom_state
    rw [hw]
    exact .inr ⟨rfl, .inl ⟨rfl, rfl, rfl⟩⟩
  all_goals
    cases h
    exact .inr ⟨rfl, .inl ⟨rfl, rfl, rfl⟩⟩

end Sys2Proof.Machine
end

