-- ==== Sys2Proof/Laws/PerInstr.lean ====
section
/-! SUPPORT. Laws/PerInstr.lean: the per-instruction family EncodesOwnRow: the word of an instruction hits a row of the table
(spec/30_encoding.md R75), and that row builds the instruction back from it. -/

namespace Sys2Proof.Laws

/-- The encoded word hits a row of the table, and the row builds the instruction from it. -/
def EncodesOwnRow.Statement (i : Instr) : Prop :=
  ∃ r ∈ opcodeTable, r.hits (encode i) = true ∧ r.build (encode i) = i

theorem EncodesOwnRow.cls : EncodesOwnRow.Statement .cls :=
  ⟨opcodeTable[0], List.getElem_mem (by decide), by decide, rfl⟩

theorem EncodesOwnRow.ret : EncodesOwnRow.Statement .ret :=
  ⟨opcodeTable[1], List.getElem_mem (by decide), by decide, rfl⟩

theorem EncodesOwnRow.jp (nnn : Addr) : EncodesOwnRow.Statement (.jp nnn) :=
  ⟨opcodeTable[2], List.getElem_mem (by decide), by
    show (encNNN 0x1 nnn &&& 0xF000 == (0x1000 : Word)) = true
    rw [encNNN_and]
    decide, by
    show Instr.jp (fieldNNN (encNNN 0x1 nnn)) = _
    rw [fieldNNN_encNNN]⟩

theorem EncodesOwnRow.call (nnn : Addr) : EncodesOwnRow.Statement (.call nnn) :=
  ⟨opcodeTable[3], List.getElem_mem (by decide), by
    show (encNNN 0x2 nnn &&& 0xF000 == (0x2000 : Word)) = true
    rw [encNNN_and]
    decide, by
    show Instr.call (fieldNNN (encNNN 0x2 nnn)) = _
    rw [fieldNNN_encNNN]⟩

theorem EncodesOwnRow.seImm (x : Reg) (nn : Byte) : EncodesOwnRow.Statement (.seImm x nn) :=
  ⟨opcodeTable[4], List.getElem_mem (by decide), by
    show (encXNN 0x3 x nn &&& 0xF000 == (0x3000 : Word)) = true
    rw [encXNN_and]
    decide, by
    show Instr.seImm (fieldX (encXNN 0x3 x nn)) (fieldNN (encXNN 0x3 x nn)) = _
    rw [fieldX_encXNN, fieldNN_encXNN]⟩

theorem EncodesOwnRow.sneImm (x : Reg) (nn : Byte) : EncodesOwnRow.Statement (.sneImm x nn) :=
  ⟨opcodeTable[5], List.getElem_mem (by decide), by
    show (encXNN 0x4 x nn &&& 0xF000 == (0x4000 : Word)) = true
    rw [encXNN_and]
    decide, by
    show Instr.sneImm (fieldX (encXNN 0x4 x nn)) (fieldNN (encXNN 0x4 x nn)) = _
    rw [fieldX_encXNN, fieldNN_encXNN]⟩

theorem EncodesOwnRow.seReg (x : Reg) (y : Reg) : EncodesOwnRow.Statement (.seReg x y) :=
  ⟨opcodeTable[6], List.getElem_mem (by decide), by
    show (encXYN 0x5 x y 0x0 &&& 0xF00F == (0x5000 : Word)) = true
    rw [encXYN_and]
    decide, by
    show Instr.seReg (fieldX (encXYN 0x5 x y 0x0)) (fieldY (encXYN 0x5 x y 0x0)) = _
    rw [fieldX_encXYN, fieldY_encXYN]⟩

theorem EncodesOwnRow.ldImm (x : Reg) (nn : Byte) : EncodesOwnRow.Statement (.ldImm x nn) :=
  ⟨opcodeTable[7], List.getElem_mem (by decide), by
    show (encXNN 0x6 x nn &&& 0xF000 == (0x6000 : Word)) = true
    rw [encXNN_and]
    decide, by
    show Instr.ldImm (fieldX (encXNN 0x6 x nn)) (fieldNN (encXNN 0x6 x nn)) = _
    rw [fieldX_encXNN, fieldNN_encXNN]⟩

theorem EncodesOwnRow.addImm (x : Reg) (nn : Byte) : EncodesOwnRow.Statement (.addImm x nn) :=
  ⟨opcodeTable[8], List.getElem_mem (by decide), by
    show (encXNN 0x7 x nn &&& 0xF000 == (0x7000 : Word)) = true
    rw [encXNN_and]
    decide, by
    show Instr.addImm (fieldX (encXNN 0x7 x nn)) (fieldNN (encXNN 0x7 x nn)) = _
    rw [fieldX_encXNN, fieldNN_encXNN]⟩

theorem EncodesOwnRow.ldReg (x : Reg) (y : Reg) : EncodesOwnRow.Statement (.ldReg x y) :=
  ⟨opcodeTable[9], List.getElem_mem (by decide), by
    show (encXYN 0x8 x y 0x0 &&& 0xF00F == (0x8000 : Word)) = true
    rw [encXYN_and]
    decide, by
    show Instr.ldReg (fieldX (encXYN 0x8 x y 0x0)) (fieldY (encXYN 0x8 x y 0x0)) = _
    rw [fieldX_encXYN, fieldY_encXYN]⟩

theorem EncodesOwnRow.orReg (x : Reg) (y : Reg) : EncodesOwnRow.Statement (.orReg x y) :=
  ⟨opcodeTable[10], List.getElem_mem (by decide), by
    show (encXYN 0x8 x y 0x1 &&& 0xF00F == (0x8001 : Word)) = true
    rw [encXYN_and]
    decide, by
    show Instr.orReg (fieldX (encXYN 0x8 x y 0x1)) (fieldY (encXYN 0x8 x y 0x1)) = _
    rw [fieldX_encXYN, fieldY_encXYN]⟩

theorem EncodesOwnRow.andReg (x : Reg) (y : Reg) : EncodesOwnRow.Statement (.andReg x y) :=
  ⟨opcodeTable[11], List.getElem_mem (by decide), by
    show (encXYN 0x8 x y 0x2 &&& 0xF00F == (0x8002 : Word)) = true
    rw [encXYN_and]
    decide, by
    show Instr.andReg (fieldX (encXYN 0x8 x y 0x2)) (fieldY (encXYN 0x8 x y 0x2)) = _
    rw [fieldX_encXYN, fieldY_encXYN]⟩

theorem EncodesOwnRow.xorReg (x : Reg) (y : Reg) : EncodesOwnRow.Statement (.xorReg x y) :=
  ⟨opcodeTable[12], List.getElem_mem (by decide), by
    show (encXYN 0x8 x y 0x3 &&& 0xF00F == (0x8003 : Word)) = true
    rw [encXYN_and]
    decide, by
    show Instr.xorReg (fieldX (encXYN 0x8 x y 0x3)) (fieldY (encXYN 0x8 x y 0x3)) = _
    rw [fieldX_encXYN, fieldY_encXYN]⟩

theorem EncodesOwnRow.addReg (x : Reg) (y : Reg) : EncodesOwnRow.Statement (.addReg x y) :=
  ⟨opcodeTable[13], List.getElem_mem (by decide), by
    show (encXYN 0x8 x y 0x4 &&& 0xF00F == (0x8004 : Word)) = true
    rw [encXYN_and]
    decide, by
    show Instr.addReg (fieldX (encXYN 0x8 x y 0x4)) (fieldY (encXYN 0x8 x y 0x4)) = _
    rw [fieldX_encXYN, fieldY_encXYN]⟩

theorem EncodesOwnRow.sub (x : Reg) (y : Reg) : EncodesOwnRow.Statement (.sub x y) :=
  ⟨opcodeTable[14], List.getElem_mem (by decide), by
    show (encXYN 0x8 x y 0x5 &&& 0xF00F == (0x8005 : Word)) = true
    rw [encXYN_and]
    decide, by
    show Instr.sub (fieldX (encXYN 0x8 x y 0x5)) (fieldY (encXYN 0x8 x y 0x5)) = _
    rw [fieldX_encXYN, fieldY_encXYN]⟩

theorem EncodesOwnRow.shr (x : Reg) (y : Reg) : EncodesOwnRow.Statement (.shr x y) :=
  ⟨opcodeTable[15], List.getElem_mem (by decide), by
    show (encXYN 0x8 x y 0x6 &&& 0xF00F == (0x8006 : Word)) = true
    rw [encXYN_and]
    decide, by
    show Instr.shr (fieldX (encXYN 0x8 x y 0x6)) (fieldY (encXYN 0x8 x y 0x6)) = _
    rw [fieldX_encXYN, fieldY_encXYN]⟩

theorem EncodesOwnRow.subn (x : Reg) (y : Reg) : EncodesOwnRow.Statement (.subn x y) :=
  ⟨opcodeTable[16], List.getElem_mem (by decide), by
    show (encXYN 0x8 x y 0x7 &&& 0xF00F == (0x8007 : Word)) = true
    rw [encXYN_and]
    decide, by
    show Instr.subn (fieldX (encXYN 0x8 x y 0x7)) (fieldY (encXYN 0x8 x y 0x7)) = _
    rw [fieldX_encXYN, fieldY_encXYN]⟩

theorem EncodesOwnRow.shl (x : Reg) (y : Reg) : EncodesOwnRow.Statement (.shl x y) :=
  ⟨opcodeTable[17], List.getElem_mem (by decide), by
    show (encXYN 0x8 x y 0xE &&& 0xF00F == (0x800E : Word)) = true
    rw [encXYN_and]
    decide, by
    show Instr.shl (fieldX (encXYN 0x8 x y 0xE)) (fieldY (encXYN 0x8 x y 0xE)) = _
    rw [fieldX_encXYN, fieldY_encXYN]⟩

theorem EncodesOwnRow.sneReg (x : Reg) (y : Reg) : EncodesOwnRow.Statement (.sneReg x y) :=
  ⟨opcodeTable[18], List.getElem_mem (by decide), by
    show (encXYN 0x9 x y 0x0 &&& 0xF00F == (0x9000 : Word)) = true
    rw [encXYN_and]
    decide, by
    show Instr.sneReg (fieldX (encXYN 0x9 x y 0x0)) (fieldY (encXYN 0x9 x y 0x0)) = _
    rw [fieldX_encXYN, fieldY_encXYN]⟩

theorem EncodesOwnRow.ldI (nnn : Addr) : EncodesOwnRow.Statement (.ldI nnn) :=
  ⟨opcodeTable[19], List.getElem_mem (by decide), by
    show (encNNN 0xA nnn &&& 0xF000 == (0xA000 : Word)) = true
    rw [encNNN_and]
    decide, by
    show Instr.ldI (fieldNNN (encNNN 0xA nnn)) = _
    rw [fieldNNN_encNNN]⟩

theorem EncodesOwnRow.jpV0 (nnn : Addr) : EncodesOwnRow.Statement (.jpV0 nnn) :=
  ⟨opcodeTable[20], List.getElem_mem (by decide), by
    show (encNNN 0xB nnn &&& 0xF000 == (0xB000 : Word)) = true
    rw [encNNN_and]
    decide, by
    show Instr.jpV0 (fieldNNN (encNNN 0xB nnn)) = _
    rw [fieldNNN_encNNN]⟩

theorem EncodesOwnRow.rnd (x : Reg) (nn : Byte) : EncodesOwnRow.Statement (.rnd x nn) :=
  ⟨opcodeTable[21], List.getElem_mem (by decide), by
    show (encXNN 0xC x nn &&& 0xF000 == (0xC000 : Word)) = true
    rw [encXNN_and]
    decide, by
    show Instr.rnd (fieldX (encXNN 0xC x nn)) (fieldNN (encXNN 0xC x nn)) = _
    rw [fieldX_encXNN, fieldNN_encXNN]⟩

theorem EncodesOwnRow.drw (x : Reg) (y : Reg) (n : Fin 16) : EncodesOwnRow.Statement (.drw x y n) :=
  ⟨opcodeTable[22], List.getElem_mem (by decide), by
    show (encXYN 0xD x y (BitVec.ofFin n) &&& 0xF000 == (0xD000 : Word)) = true
    rw [encXYN_and_top]
    decide, by
    show Instr.drw (fieldX (encXYN 0xD x y (BitVec.ofFin n))) (fieldY (encXYN 0xD x y (BitVec.ofFin n))) (fieldN (encXYN 0xD x y (BitVec.ofFin n))) = _
    rw [fieldX_encXYN, fieldY_encXYN, fieldN_encXYN]⟩

theorem EncodesOwnRow.skp (x : Reg) : EncodesOwnRow.Statement (.skp x) :=
  ⟨opcodeTable[23], List.getElem_mem (by decide), by
    show (encXNN 0xE x 0x9E &&& 0xF0FF == (0xE09E : Word)) = true
    rw [encXNN_and_X]
    decide, by
    show Instr.skp (fieldX (encXNN 0xE x 0x9E)) = _
    rw [fieldX_encXNN]⟩

theorem EncodesOwnRow.sknp (x : Reg) : EncodesOwnRow.Statement (.sknp x) :=
  ⟨opcodeTable[24], List.getElem_mem (by decide), by
    show (encXNN 0xE x 0xA1 &&& 0xF0FF == (0xE0A1 : Word)) = true
    rw [encXNN_and_X]
    decide, by
    show Instr.sknp (fieldX (encXNN 0xE x 0xA1)) = _
    rw [fieldX_encXNN]⟩

theorem EncodesOwnRow.ldVxDt (x : Reg) : EncodesOwnRow.Statement (.ldVxDt x) :=
  ⟨opcodeTable[25], List.getElem_mem (by decide), by
    show (encXNN 0xF x 0x07 &&& 0xF0FF == (0xF007 : Word)) = true
    rw [encXNN_and_X]
    decide, by
    show Instr.ldVxDt (fieldX (encXNN 0xF x 0x07)) = _
    rw [fieldX_encXNN]⟩

theorem EncodesOwnRow.ldVxK (x : Reg) : EncodesOwnRow.Statement (.ldVxK x) :=
  ⟨opcodeTable[26], List.getElem_mem (by decide), by
    show (encXNN 0xF x 0x0A &&& 0xF0FF == (0xF00A : Word)) = true
    rw [encXNN_and_X]
    decide, by
    show Instr.ldVxK (fieldX (encXNN 0xF x 0x0A)) = _
    rw [fieldX_encXNN]⟩

theorem EncodesOwnRow.ldDtVx (x : Reg) : EncodesOwnRow.Statement (.ldDtVx x) :=
  ⟨opcodeTable[27], List.getElem_mem (by decide), by
    show (encXNN 0xF x 0x15 &&& 0xF0FF == (0xF015 : Word)) = true
    rw [encXNN_and_X]
    decide, by
    show Instr.ldDtVx (fieldX (encXNN 0xF x 0x15)) = _
    rw [fieldX_encXNN]⟩

theorem EncodesOwnRow.ldStVx (x : Reg) : EncodesOwnRow.Statement (.ldStVx x) :=
  ⟨opcodeTable[28], List.getElem_mem (by decide), by
    show (encXNN 0xF x 0x18 &&& 0xF0FF == (0xF018 : Word)) = true
    rw [encXNN_and_X]
    decide, by
    show Instr.ldStVx (fieldX (encXNN 0xF x 0x18)) = _
    rw [fieldX_encXNN]⟩

theorem EncodesOwnRow.addI (x : Reg) : EncodesOwnRow.Statement (.addI x) :=
  ⟨opcodeTable[29], List.getElem_mem (by decide), by
    show (encXNN 0xF x 0x1E &&& 0xF0FF == (0xF01E : Word)) = true
    rw [encXNN_and_X]
    decide, by
    show Instr.addI (fieldX (encXNN 0xF x 0x1E)) = _
    rw [fieldX_encXNN]⟩

theorem EncodesOwnRow.ldF (x : Reg) : EncodesOwnRow.Statement (.ldF x) :=
  ⟨opcodeTable[30], List.getElem_mem (by decide), by
    show (encXNN 0xF x 0x29 &&& 0xF0FF == (0xF029 : Word)) = true
    rw [encXNN_and_X]
    decide, by
    show Instr.ldF (fieldX (encXNN 0xF x 0x29)) = _
    rw [fieldX_encXNN]⟩

theorem EncodesOwnRow.bcd (x : Reg) : EncodesOwnRow.Statement (.bcd x) :=
  ⟨opcodeTable[31], List.getElem_mem (by decide), by
    show (encXNN 0xF x 0x33 &&& 0xF0FF == (0xF033 : Word)) = true
    rw [encXNN_and_X]
    decide, by
    show Instr.bcd (fieldX (encXNN 0xF x 0x33)) = _
    rw [fieldX_encXNN]⟩

theorem EncodesOwnRow.stRegs (x : Reg) : EncodesOwnRow.Statement (.stRegs x) :=
  ⟨opcodeTable[32], List.getElem_mem (by decide), by
    show (encXNN 0xF x 0x55 &&& 0xF0FF == (0xF055 : Word)) = true
    rw [encXNN_and_X]
    decide, by
    show Instr.stRegs (fieldX (encXNN 0xF x 0x55)) = _
    rw [fieldX_encXNN]⟩

theorem EncodesOwnRow.ldRegs (x : Reg) : EncodesOwnRow.Statement (.ldRegs x) :=
  ⟨opcodeTable[33], List.getElem_mem (by decide), by
    show (encXNN 0xF x 0x65 &&& 0xF0FF == (0xF065 : Word)) = true
    rw [encXNN_and_X]
    decide, by
    show Instr.ldRegs (fieldX (encXNN 0xF x 0x65)) = _
    rw [fieldX_encXNN]⟩

end Sys2Proof.Laws
end

