-- ==== Sys2Proof/Laws/Step.lean ====
section
/-! SUPPORT. Laws/Step.lean: everything a cycle request can do (spec/40_cycle_and_dispatch.md R90, R97), said once, and its four
cases as equations. -/

namespace Sys2Proof.Machine

variable {s t u : State} {op : Word} {i : Instr} {r : DecodeReject}

theorem step_of_halted (h : s.fault.valid = true) : step s = .next s := by
  simp [step, cycle, h]

theorem step_of_no_fetch (h : s.fault.valid = false) (hf : s.fetch = none) :
    step s = .next (s.raise .fetchOutOfRange 0 s.pc.toNat) := by
  simp [step, cycle, h, hf, fetchFault]

theorem step_of_unknown (h : s.fault.valid = false) (hf : s.fetch = some op) (hd : decode op = .error r) :
    step s = .next s.advance.tick := by
  simp [step, cycle, h, hf, hd, unknownCycle]

theorem step_of_instr (h : s.fault.valid = false) (hf : s.fetch = some op) (hd : decode op = .ok i)
    (he : exec i s = .next u) : step s = .next (conclude i s u).1 := by
  simp [step, cycle, h, hf, hd, instrCycle, he]

/-- What a cycle request can do. -/
theorem step_cases (h : step s = .next t) :
    (s.fault.valid = true ∧ t = s) ∨
    (s.fault.valid = false ∧ s.fetch = none ∧ t = s.raise .fetchOutOfRange 0 s.pc.toNat) ∨
    (∃ op r, s.fault.valid = false ∧ s.fetch = some op ∧ decode op = .error r ∧ t = s.advance.tick) ∨
    (∃ op i u, s.fault.valid = false ∧ s.fetch = some op ∧ decode op = .ok i ∧ exec i s = .next u ∧
      t = (conclude i s u).1) := by
  cases hv : s.fault.valid with
  | true =>
    rw [step_of_halted hv] at h
    cases h
    exact .inl ⟨rfl, rfl⟩
  | false =>
    refine .inr ?_
    cases hf : s.fetch with
    | none =>
      rw [step_of_no_fetch hv hf] at h
      cases h
      exact .inl ⟨rfl, rfl, rfl⟩
    | some op =>
      refine .inr ?_
      cases hd : decode op with
      | error r =>
        rw [step_of_unknown hv hf hd] at h
        cases h
        exact .inl ⟨op, r, rfl, rfl, hd, rfl⟩
      | ok i =>
        cases he : exec i s with
        | next u =>
          rw [step_of_instr hv hf hd he] at h
          cases h
          exact .inr ⟨op, i, u, rfl, rfl, hd, he, rfl⟩
        | fault f => simp [step, cycle, hv, hf, hd, instrCycle, he] at h
        | refused q => simp [step, cycle, hv, hf, hd, instrCycle, he] at h

/-- The end of a cycle (R97): faulted or waiting with nothing added, or completed with the tick. -/
theorem conclude_cases (i : Instr) (s t : State) :
    (t.fault.valid = true ∧ (conclude i s t).1 = t) ∨
    (t.fault.valid = false ∧ awaitsKey i s = true ∧ (conclude i s t).1 = t) ∨
    (t.fault.valid = false ∧ awaitsKey i s = false ∧ (conclude i s t).1 = t.tick) := by
  unfold conclude
  cases t.fault.valid <;> cases awaitsKey i s <;> simp

/-- Only FX0A waits, and only while the host has not answered (R97). -/
theorem awaitsKey_eq_true : awaitsKey i s = true ↔ (∃ x, i = .ldVxK x) ∧ s.keyAnswers = [] := by
  unfold awaitsKey
  split
  · simp
  · rename_i h
    simp only [Bool.false_eq_true, false_iff, not_and]
    rintro ⟨x, rfl⟩
    exact absurd rfl (h x)

end Sys2Proof.Machine
end

