-- ==== Sys2Proof/Laws/Transactions.lean ====
section
/-! SUPPORT. Laws/Transactions.lean: the memory of a reset with any parameters, that `State.reset` is the reset with the
parameters that the assumption log names, and everything a transaction can do. -/

namespace Sys2Proof.Machine

/-- MEM after reset is GLYPH and MEM_FILL (R41). -/
theorem State.resetWith_byte (p : Params) (keys : BitVec 16) {a : Nat} (ha : a < 4096) :
    (State.resetWith p keys).byte a = p.resetByte a :=
  Memory.read_ofContents _ ha

theorem State.resetWith_mem_wf (p : Params) (keys : BitVec 16) : (State.resetWith p keys).mem.wf :=
  Memory.ofContents_wf _

/-- Memory after a load: the image at 512, the rest as it was (R205). -/
theorem State.load_byte {s t : State} (hm : s.mem.wf) {image : List Byte} (h : s.load image = some t) (a : Nat) :
    t.byte a = if 512 ≤ a ∧ a < 512 + image.length then image.getD (a - 512) 0 else s.byte a := by
  unfold State.load at h
  split at h <;> cases h
  exact Memory.read_store hm (by omega) a

/-- `State.reset` is the reset with the glyph table of log 1, the fill of log 2 and the keys of log 3. -/
theorem State.reset_eq_resetWith : State.resetWith familyParams 0 = State.reset := by
  have h : Memory.ofContents familyParams.resetByte = [] := by
    unfold Memory.ofContents
    rw [List.filterMap_eq_nil_iff]
    intro a _
    rw [if_pos]
    unfold Params.resetByte Memory.unlisted familyParams
    split <;> rfl
  unfold State.resetWith
  rw [h]
  rfl

variable {x : Transaction} {s t : State}

/-- Nothing but reset changes a halted core (R33). -/
theorem Transaction.apply_of_halted (h : s.fault.valid = true) : x.apply s = .next s := by
  simp [Transaction.apply, h]

/-- A cycle request is one step, of a halted core too (R34). -/
theorem Transaction.apply_requestCycle : Transaction.requestCycle.apply s = step s := by
  cases h : s.fault.valid <;> simp [Transaction.apply, h, step_of_halted]

/-- What a transaction can do: a step, or on a running core the write of its one part. -/
theorem Transaction.apply_cases (h : x.apply s = .next t) :
    step s = .next t ∨ (s.fault.valid = true ∧ t = s) ∨
    (s.fault.valid = false ∧ ((∃ keys, t = s.writeKeys keys) ∨ t = s.clearDirty ∨ (∃ k, t = s.answerKey k) ∨
      ∃ b, t = s.supplyRandom b)) := by
  cases hv : s.fault.valid with
  | true =>
    rw [Transaction.apply_of_halted hv] at h
    cases h
    exact .inr (.inl ⟨rfl, rfl⟩)
  | false =>
    simp only [Transaction.apply, hv, Bool.false_eq_true, if_false] at h
    cases x with
    | requestCycle => exact .inl h
    | writeKeys keys => cases h; exact .inr (.inr ⟨rfl, .inl ⟨_, rfl⟩⟩)
    | clearDirty => cases h; exact .inr (.inr ⟨rfl, .inr (.inl rfl)⟩)
    | answerKey k => cases h; exact .inr (.inr ⟨rfl, .inr (.inr (.inl ⟨_, rfl⟩))⟩)
    | supplyRandom b => cases h; exact .inr (.inr ⟨rfl, .inr (.inr (.inr ⟨_, rfl⟩))⟩)

end Sys2Proof.Machine
end

