-- ==== Sys2Proof/Tests/Slice0.lean ====
section
/-! SUPPORT. Tests/Slice0.lean: the model's own tests. The expected results are those of spec/95_test_vectors.md (the table is
named at each group: T<n>, V-DEC, V-FLOW, ...) or words written out from the patterns of spec/30_encoding.md R75. Each test is one
step. The witnesses at the end meet the hypotheses of the statements of Certificates/Slice0/Obligations.lean. -/

namespace Sys2Proof.Tests

open Sys2Proof.Machine

-- Many small kernel evaluations in one file: one after another, each in the one thread.
set_option Elab.async false

/-- The start state of spec/95_test_vectors.md: reset, changed by `f`, with the word `op` at pc. -/
def start (op : Nat) (f : State → State := id) : State := (f State.reset).withFetchWord 16 op

/-- The next state, if the outcome is one. -/
def nextOf : Result → Option State
  | .next t => some t
  | _ => none

/-- One cycle answers a next state with `p`. -/
def after (s : State) (p : State → Bool) : Bool := (nextOf (step s)).any p

/-- One cycle ends in this fault and changes nothing else ("Fault(name, fpc, fop, finfo)" of spec/95_test_vectors.md). -/
def faults (s : State) (cause : BitVec 3) (fpc fop : Word) (info : BitVec 17) : Bool :=
  nextOf (step s) == some { s with fault := ⟨true, cause, fpc, fop, info⟩ }

/-! ### Decoding: words written out bit by bit from R75, every constructor, family by family -/

theorem test_decode_flow :
    decode 0b0000000011101110 = .ok .ret ∧ decode 0b0001101010111100 = .ok (.jp 0xABC) ∧
    decode 0b0010111111111111 = .ok (.call 0xFFF) ∧ decode 0b1011001100000001 = .ok (.jpV0 0x301) := by decide +kernel

theorem test_decode_skip :
    decode 0b0011101001111111 = .ok (.seImm 10 0x7F) ∧ decode 0b0100001100101010 = .ok (.sneImm 3 0x2A) ∧
    decode 0b0101101010110000 = .ok (.seReg 10 11) ∧ decode 0b1001101010110000 = .ok (.sneReg 10 11) := by decide +kernel

theorem test_decode_load_alu :
    decode 0b0110000111111110 = .ok (.ldImm 1 0xFE) ∧ decode 0b0111111000000001 = .ok (.addImm 14 1) ∧
    decode 0b1000000111100000 = .ok (.ldReg 1 14) ∧ decode 0b1000000111100001 = .ok (.orReg 1 14) ∧
    decode 0b1000000111100010 = .ok (.andReg 1 14) ∧ decode 0b1000000111100011 = .ok (.xorReg 1 14) ∧
    decode 0b1000101010110100 = .ok (.addReg 10 11) ∧ decode 0b1000000111100101 = .ok (.sub 1 14) ∧
    decode 0b1000000111100110 = .ok (.shr 1 14) ∧ decode 0b1000000111100111 = .ok (.subn 1 14) ∧
    decode 0b1000101010111110 = .ok (.shl 10 11) := by decide +kernel

theorem test_decode_index_memory :
    decode 0b1010001011110000 = .ok (.ldI 0x2F0) ∧ decode 0b1111001000011110 = .ok (.addI 2) ∧
    decode 0b1111010000101001 = .ok (.ldF 4) ∧ decode 0b1111010100110011 = .ok (.bcd 5) ∧
    decode 0b1111001001010101 = .ok (.stRegs 2) ∧ decode 0b1111111101100101 = .ok (.ldRegs 15) := by decide +kernel

theorem test_decode_display_keypad_timers :
    decode 0b0000000011100000 = .ok .cls ∧ decode 0b1101000100101111 = .ok (.drw 1 2 15) ∧
    decode 0b1110000110011110 = .ok (.skp 1) ∧ decode 0b1110111110100001 = .ok (.sknp 15) ∧
    decode 0b1111000000000111 = .ok (.ldVxDt 0) ∧ decode 0b1111001100001010 = .ok (.ldVxK 3) ∧
    decode 0b1111001100010101 = .ok (.ldDtVx 3) ∧ decode 0b1111001100011000 = .ok (.ldStVx 3) ∧
    decode 0b1100010100001111 = .ok (.rnd 5 0x0F) := by decide +kernel

/-- V-DEC: words that are no instruction, the alias band among them. -/
def unknownWords : List Word :=
  [0x0000, 0x0123, 0x00E1, 0x00EF, 0x0FFF, 0x01E0, 0x0FE0, 0x02EE, 0x00F0, 0x001E, 0x5AB1, 0x5ABF, 0x9AB5, 0x8AB8, 0x8ABF,
    0xE19F, 0xE1A0, 0xE000, 0xE1FF, 0xF100, 0xF1FF, 0xF175, 0xF185, 0xF11F, 0xF130]

theorem test_decode_unknown : unknownWords.all (fun w => decode w = .error (.unknownOpcode w)) = true := by decide +kernel

theorem test_decode_too_few_bytes : decodeBytes [0x60] = .error (.tooFewBytes 1) := by decide +kernel

theorem test_decodeTableWord : decodeTableWord 16 0x8124 = some (.addReg 1 2) ∧ decodeTableWord 16 0x5AB1 = none := by
  decide +kernel

/-- R56: the byte at the lower address is the high byte of the word. -/
theorem test_withFetchWord : ((State.reset.withFetchWord 16 0x632A).byte 0x200, (State.reset.withFetchWord 16 0x632A).byte 0x201,
    (State.reset.withFetchWord 16 0x632A).fetch) = (0x63, 0x2A, some 0x632A) := by decide +kernel

/-! ### WellFormed: an ill-formed line for each check (R81, R82), beside a well-formed one -/

theorem test_wellFormed_register : AsmLine.wellFormed [] ⟨.OR, [.v 15, .v 0]⟩ = true ∧
    AsmLine.toInstr [] ⟨.OR, [.v 16, .v 0]⟩ = .error (.badRegister 16) ∧
    AsmLine.toInstr [] ⟨.DRW, [.v 0, .v 16, .num 1]⟩ = .error (.badRegister 16) := by decide +kernel

theorem test_wellFormed_byte : AsmLine.wellFormed [] ⟨.LD, [.v 0, .num 255]⟩ = true ∧
    AsmLine.toInstr [] ⟨.LD, [.v 0, .num 256]⟩ = .error (.tooWide 256 8) := by decide +kernel

theorem test_wellFormed_address : AsmLine.wellFormed [] ⟨.JP, [.num 4095]⟩ = true ∧
    AsmLine.toInstr [] ⟨.JP, [.num 4096]⟩ = .error (.tooWide 4096 12) := by decide +kernel

theorem test_wellFormed_nibble : AsmLine.wellFormed [] ⟨.DRW, [.v 0, .v 1, .num 15]⟩ = true ∧
    AsmLine.toInstr [] ⟨.DRW, [.v 0, .v 1, .num 16]⟩ = .error (.tooWide 16 4) := by decide +kernel

theorem test_wellFormed_label : AsmLine.wellFormed [("loop", 0x204)] ⟨.JP, [.label "loop"]⟩ = true ∧
    AsmLine.toInstr [("loop", 0x204)] ⟨.JP, [.label "end"]⟩ = .error (.unknownLabel "end") := by decide +kernel

/-- For AssemblerChecksOperandRanges, at the ends of the ranges. -/
theorem witness_AssemblerChecksOperandRanges : lineInRange [("end", 4095)] .CALL [.label "end"] ∧
    lineInRange [] .DRW [.v 15, .v 0, .num 15] ∧ ¬ lineInRange [] .SHL [.v 16] := by
  refine ⟨⟨4095, by decide, by decide +kernel⟩, by unfold lineInRange; decide, by unfold lineInRange; decide⟩

/-- A label stands alone on its line (log 15). -/
theorem test_label_alone : asmItem "a:".toList = .ok [.label "a"] ∧ asmItem "a: CLS".toList = .error .noSuchForm := by
  decide +kernel

theorem test_wellFormed_form : AsmLine.toInstr [] ⟨.JP, [.v 1, .num 0x300]⟩ = .error .noSuchForm ∧
    AsmLine.toInstr [] ⟨.CLS, [.num 0]⟩ = .error .noSuchForm := by decide +kernel

/-- P1 of spec/95_test_vectors.md with its label: the image it gives. -/
theorem test_assemble_P1 : assemble [.line ⟨.LD, [.v 0, .num 0]⟩, .line ⟨.LD, [.v 1, .num 10]⟩, .label "loop",
      .line ⟨.ADD, [.v 0, .v 1]⟩, .line ⟨.ADD, [.v 1, .num 0xFF]⟩, .line ⟨.SE, [.v 1, .num 0]⟩, .line ⟨.JP, [.label "loop"]⟩,
      .word 0x120C] =
    .ok [0x60, 0x00, 0x61, 0x0A, 0x80, 0x14, 0x71, 0xFF, 0x31, 0x00, 0x12, 0x04, 0x12, 0x0C] := by decide +kernel

/-- A `DB` of no bytes places none (log 15). -/
theorem test_db_empty : assembleText "DB\nCLS".toList = .ok [0x00, 0xE0] := by decide +kernel

/-- The end of P3, with `DB`; a byte too wide is refused. -/
theorem test_assemble_DB : assemble [.line ⟨.JP, [.num 0x20E]⟩, .db [0xC0, 0xA0]] = .ok [0x12, 0x0E, 0xC0, 0xA0] ∧
    assemble [.db [256]] = .error (.tooWide 256 8) := by decide +kernel

/-- P2, with its labels as labels and one word in hexadecimal: the image it gives. -/
theorem test_assembleText_P2 : assembleText
      "LD V3, 0x9C\nCALL digits\nADD V0, V1\nADD V0, V2\npark:\nJP park\ndigits:\nLD I, 0x300\nLD B, V3\nLD V2, [I]\n0x00EE".toList =
    .ok [0x63, 0x9C, 0x22, 0x0A, 0x80, 0x14, 0x80, 0x24, 0x12, 0x08, 0xA3, 0x00, 0xF3, 0x33, 0xF2, 0x65, 0x00, 0xEE] := by
  decide +kernel

/-- Text that is no line: an operand too wide, a second operand too many, a name for a register. -/
theorem test_assembleText_refuses : assembleText "LD V0, 256".toList = .error (.tooWide 256 8) ∧
    assembleText "CLS V0".toList = .error .noSuchForm ∧ assembleText "SKP VG".toList = .error .noSuchForm := by decide +kernel

/-! ### Reset and the cycle: T1, T9, V-UNK, V-FLT -/

/-- T1. -/
theorem test_reset : State.reset.pc = 512 ∧ State.reset.sp = 0 ∧ State.reset.I = 0 ∧ State.reset.dt = 0 ∧ State.reset.st = 0 ∧
    State.reset.mem.wf ∧ ∀ r, State.reset.getV r = 0 := by decide +kernel

/-- The glyph table of R203: the first byte of the digit 0, the second of 1 and the last of F. -/
theorem test_reset_glyph : (State.reset.byte 0, State.reset.byte 7, State.reset.byte 79, State.reset.byte 80) = (0xF0, 0x20, 0x80, 0) := by
  decide +kernel

/-- T9 (a). -/
theorem test_tick : after (start 0x1200 fun s => { s with dt := 1, st := 1 }) (fun t => t.dt == 0 && t.st == 0 && t.pc == 0x200) ∧
    observations (start 0x1200 fun s => { s with dt := 1, st := 1 }) = [.dtEdge, .stEdge] := by decide +kernel

/-- V-UNK, the first row. -/
theorem test_unknown : after (start 0x5AB1 fun s => s.setDt 3) (fun t => t.pc == 0x202 && t.dt == 2 && !t.fault.valid) ∧
    observations (start 0x5AB1 fun s => s.setDt 3) = [.unknownOpcode 0x200 0x5AB1] := by decide +kernel

/-- V-FLT: pc = 4095 and 0x10FE, with DT = 5. -/
theorem test_fetch_fault : faults { State.reset with pc := 4095, dt := 5 } 1 4095 0 4095 ∧
    faults { State.reset with pc := 0x10FE } 1 0x10FE 0 0x10FE := by decide +kernel

/-- V-FLT: pc = 4094 still executes. -/
theorem test_fetch_last : after (start 0x6001 fun s => s.jump 4094) (fun t => t.getV 0 == 1 && t.pc == 4096) := by decide +kernel

/-- V-FLT: the halted core does nothing. -/
theorem test_halted : nextOf (step { State.reset with fault := ⟨true, 1, 512, 0, 512⟩, dt := 5 }) =
    some { State.reset with fault := ⟨true, 1, 512, 0, 512⟩, dt := 5 } := by decide +kernel

/-! ### Control transfer: V-FLOW -/

theorem test_ret : after (start 0x00EE fun s => { s with sp := 16, stack := s.stack.set 15 0xFFF, pc := 0x300 })
    (fun t => t.sp == 15 && t.pc == 0xFFF) := by decide +kernel

theorem test_ret_underflow : faults (start 0x00EE fun s => s.jump 0x300) 5 0x300 0x00EE 0 := by decide +kernel

theorem test_jp : after (start 0x1234) (fun t => t.pc == 0x234) := by decide +kernel

theorem test_call : after (start 0x2300 fun s => { s with sp := 15, pc := 0x202 })
    (fun t => t.stack[15] == 0x204 && t.stack[14] == 0 && t.sp == 16 && t.pc == 0x300) := by decide +kernel

theorem test_call_overflow : faults (start 0x2300 fun s => { s with sp := 16, pc := 0x202 }) 4 0x202 0x2300 16 := by decide +kernel

theorem test_jpV0 : after (start 0xBFFF fun s => s.setV 0 0xFF) (fun t => t.pc == 0x10FE) := by decide +kernel

/-! ### Skips: T5, V-SKIP -/

theorem test_seImm : after (start 0x332A fun s => s.setV 3 0x2A) (fun t => t.pc == 0x204) ∧
    after (start 0x332A fun s => s.setV 3 0x2B) (fun t => t.pc == 0x202) := by decide +kernel

theorem test_sneImm : after (start 0x432A fun s => s.setV 3 0x2A) (fun t => t.pc == 0x202) ∧
    after (start 0x432A fun s => s.setV 3 0x2B) (fun t => t.pc == 0x204) := by decide +kernel

theorem test_seReg : after (start 0x5120 fun s => (s.setV 1 7).setV 2 8) (fun t => t.pc == 0x202) ∧
    after (start 0x5330 fun s => s.setV 3 9) (fun t => t.pc == 0x204) := by decide +kernel

theorem test_sneReg : after (start 0x9120 fun s => (s.setV 1 7).setV 2 8) (fun t => t.pc == 0x204) ∧
    after (start 0x9330 fun s => s.setV 3 9) (fun t => t.pc == 0x202) := by decide +kernel

/-! ### Load and arithmetic: T3, T4, V-ALU -/

theorem test_ldImm : after (start 0x6A7F) (fun t => t.getV 10 == 0x7F && t.pc == 0x202) := by decide +kernel

theorem test_addImm : after (start 0x720A fun s => (s.setV 2 250).setV 15 9) (fun t => t.getV 2 == 4 && t.getV 15 == 9) := by
  decide +kernel

theorem test_ldReg : after (start 0x8340 fun s => s.setV 4 9) (fun t => t.getV 3 == 9 && t.getV 4 == 9) := by decide +kernel

theorem test_orReg : after (start 0x8121 fun s => (s.setV 1 0x0F).setV 2 0xF0) (fun t => t.getV 1 == 0xFF && t.getV 15 == 0) := by
  decide +kernel

theorem test_andReg : after (start 0x8122 fun s => (s.setV 1 0x3C).setV 2 0x0F) (fun t => t.getV 1 == 0x0C) := by decide +kernel

theorem test_xorReg : after (start 0x8123 fun s => (s.setV 1 0x3C).setV 2 0x0F) (fun t => t.getV 1 == 0x33) := by decide +kernel

theorem test_addReg : after (start 0x8124 fun s => (s.setV 1 200).setV 2 100) (fun t => t.getV 1 == 44 && t.getV 15 == 1) := by
  decide +kernel

theorem test_addReg_alias : after (start 0x81F4 fun s => (s.setV 1 250).setV 15 10) (fun t => t.getV 1 == 251 && t.getV 15 == 1) ∧
    after (start 0x8F14 fun s => (s.setV 15 250).setV 1 10) (fun t => t.getV 15 == 11) := by decide +kernel

theorem test_sub : after (start 0x8125 fun s => (s.setV 1 7).setV 2 7) (fun t => t.getV 1 == 0 && t.getV 15 == 0) ∧
    after (start 0x8125 fun s => (s.setV 1 20).setV 2 10) (fun t => t.getV 1 == 10 && t.getV 15 == 1) := by decide +kernel

theorem test_sub_alias : after (start 0x8F15 fun s => (s.setV 15 9).setV 1 4) (fun t => t.getV 15 == 253) ∧
    after (start 0x81F5 fun s => (s.setV 1 5).setV 15 3) (fun t => t.getV 1 == 4 && t.getV 15 == 1) := by decide +kernel

theorem test_shr : after (start 0x83A6 fun s => (s.setV 3 4).setV 10 0xFF)
    (fun t => t.getV 3 == 2 && t.getV 15 == 0 && t.getV 10 == 0xFF) ∧
    after (start 0x8306 fun s => s.setV 3 0xFF) (fun t => t.getV 3 == 0x7F && t.getV 15 == 1) := by decide +kernel

theorem test_shr_alias : after (start 0x8F06 fun s => s.setV 15 0xFF) (fun t => t.getV 15 == 0) := by decide +kernel

theorem test_subn : after (start 0x8127 fun s => (s.setV 1 20).setV 2 10) (fun t => t.getV 1 == 246 && t.getV 15 == 0) ∧
    after (start 0x8127 fun s => (s.setV 1 7).setV 2 7) (fun t => t.getV 1 == 0 && t.getV 15 == 0) := by decide +kernel

theorem test_subn_alias : after (start 0x8F17 fun s => (s.setV 15 4).setV 1 9) (fun t => t.getV 15 == 8) ∧
    after (start 0x81F7 fun s => (s.setV 1 3).setV 15 5) (fun t => t.getV 1 == 254 && t.getV 15 == 1) := by decide +kernel

theorem test_shl : after (start 0x830E fun s => s.setV 3 0x81) (fun t => t.getV 3 == 2 && t.getV 15 == 1) := by decide +kernel

theorem test_shl_alias : after (start 0x8F0E fun s => s.setV 15 0x80) (fun t => t.getV 15 == 2) := by decide +kernel

/-! ### Address register and memory: T7, V-IDX -/

theorem test_ldI : after (start 0xAFFF) (fun t => t.I == 0xFFF && t.pc == 0x202) := by decide +kernel

theorem test_addI : after (start 0xF21E fun s => (s.setI 0xFFFF).setV 2 2) (fun t => t.I == 1 && t.getV 15 == 1) ∧
    after (start 0xF21E fun s => (s.setI 0xFFF).setV 2 1) (fun t => t.I == 0x1000 && t.getV 15 == 0) := by decide +kernel

theorem test_addI_alias : after (start 0xFF1E fun s => (s.setI 0x300).setV 15 9) (fun t => t.I == 0x300 && t.getV 15 == 0) ∧
    after (start 0xFF1E fun s => (s.setI 0xFFFF).setV 15 9) (fun t => t.I == 0 && t.getV 15 == 1) := by decide +kernel

theorem test_ldF : after (start 0xF429 fun s => (((s.setV 4 0xFF).setI 0xABCD).store 0xFF [0x12])) (fun t => t.I == 0x12) ∧
    after (start 0xF429 fun s => s.setV 4 0x4F) (fun t => t.I == 0x80) := by decide +kernel

theorem test_bcd : after (start 0xF533 fun s => (s.setI 0x300).setV 5 156)
    (fun t => t.byte 0x300 == 1 && t.byte 0x301 == 5 && t.byte 0x302 == 6 && t.I == 0x300) ∧
    after (start 0xF533 fun s => (s.setI 4093).setV 5 199) (fun t => t.byte 4093 == 1 && t.byte 4095 == 9) := by decide +kernel

theorem test_bcd_fault : faults (start 0xF533 fun s => (s.setI 4094).setV 5 199) 2 0x200 0xF533 4096 ∧
    faults (start 0xF533 fun s => (s.setI 79).setV 5 1) 3 0x200 0xF533 79 ∧
    faults (start 0xF533 fun s => (s.setI 0xFFFF).setV 5 1) 2 0x200 0xF533 65535 := by decide +kernel

theorem test_stRegs : after (start 0xF155 fun s => ((s.setI 0x200).setV 0 0x12).setV 1 0x34)
    (fun t => t.byte 0x200 == 0x12 && t.byte 0x201 == 0x34 && t.pc == 0x202) ∧
    after (start 0xF055 fun s => (s.setI 4095).setV 0 0x77) (fun t => t.byte 4095 == 0x77) := by decide +kernel

theorem test_stRegs_fault : faults (start 0xFF55 fun s => s.setI 4081) 2 0x200 0xFF55 4096 ∧
    faults (start 0xF355 fun s => (s.setI 77).setV 0 1) 3 0x200 0xF355 77 := by decide +kernel

theorem test_ldRegs : after (start 0xF165 fun s => (s.setI 0x400).store 0x400 [0xAA, 0xBB, 0xCC])
    (fun t => t.getV 0 == 0xAA && t.getV 1 == 0xBB && t.getV 2 == 0 && t.I == 0x400) := by decide +kernel

theorem test_ldRegs_fault : faults (start 0xFF65 fun s => s.setI 4081) 2 0x200 0xFF65 4096 := by decide +kernel

/-! ### Display: T2, T6, V-DRW -/

theorem test_cls : after (start 0x00E0 fun s => { s.setV 15 3 with fb := (s.fb.flip 5).flip 2047 })
    (fun t => t.fb == Vector.replicate 32 0 && t.getV 15 == 3 && !t.dirty) := by decide +kernel

theorem test_drw : after (start 0xDFF1 fun s => { ((s.setI 0x300).setV 15 3).store 0x300 [0xC0] with fb := s.fb.flip 195 })
    (fun t => !t.fb.pixel 195 && t.fb.pixel 196 && t.getV 15 == 1 && t.dirty) ∧
    after (start 0xD011 fun s => (((s.setI 0x300).setV 0 57).store 0x300 [0xFE]))
      (fun t => t.fb.pixel 57 && t.fb.pixel 63 && !t.fb.pixel 64 && t.getV 15 == 0) := by decide +kernel

theorem test_drw_fault : faults (start 0xD011 fun s => ((s.setI 0x300).setV 0 70).setV 1 3 |>.store 0x300 [0x80]) 6 0x200 0xD011 262 ∧
    faults (start 0xD012 fun s => ((s.setI 4095).setV 0 100).setV 1 100 |>.store 4095 [0xFF]) 2 0x200 0xD012 4096 := by decide +kernel

/-! ### Keypad: V-KEY -/

theorem test_skp : after (start 0xE29E fun s => { s.setV 2 15 with keys := 0x7FFF }) (fun t => t.pc == 0x202) ∧
    after (start 0xE29E fun s => { s.setV 2 10 with keys := 0x0400 }) (fun t => t.pc == 0x204) := by decide +kernel

theorem test_skp_fault : faults (start 0xE29E fun s => s.setV 2 16) 7 0x200 0xE29E 16 := by decide +kernel

theorem test_sknp : after (start 0xE2A1 fun s => { s.setV 2 10 with keys := 0x0400 }) (fun t => t.pc == 0x202) ∧
    after (start 0xE2A1 fun s => s.setV 2 10) (fun t => t.pc == 0x204) := by decide +kernel

theorem test_sknp_fault : faults (start 0xE2A1 fun s => s.setV 2 255) 7 0x200 0xE2A1 255 := by decide +kernel

theorem test_ldVxK : after ((start 0xF30A fun s => { s with dt := 9, st := 1 }).answerKey 12)
    (fun t => t.getV 3 == 12 && t.pc == 0x202 && t.dt == 8 && t.st == 0) ∧
    observations ((start 0xF30A fun s => { s with dt := 9, st := 1 }).answerKey 12) = [.stEdge] := by decide +kernel

theorem test_ldVxK_blocked : nextOf (step (start 0xF30A fun s => { s with dt := 9, st := 1 })) =
    some (start 0xF30A fun s => { s with dt := 9, st := 1 }) := by decide +kernel

/-! ### Timers and random: V-TMR -/

theorem test_ldVxDt : after (start 0xF307 fun s => s.setDt 1) (fun t => t.getV 3 == 1 && t.dt == 0) ∧
    observations (start 0xF307 fun s => s.setDt 1) = [.dtEdge] := by decide +kernel

theorem test_ldDtVx : after (start 0xF315 fun s => s.setV 3 255) (fun t => t.dt == 254) ∧
    observations (start 0xF315 fun s => (s.setV 3 0).setDt 7) = [] := by decide +kernel

theorem test_ldStVx : after (start 0xF318 fun s => s.setV 3 1) (fun t => t.st == 0) ∧
    observations (start 0xF318 fun s => s.setV 3 1) = [.stEdge] := by decide +kernel

theorem test_rnd : after ((start 0xC50F).supplyRandom 0xA7) (fun t => t.getV 5 == 0x07 && t.rndSupply == []) ∧
    after ((start 0xCF81).supplyRandom 0xFF) (fun t => t.getV 15 == 0x81) := by decide +kernel

/-- With no byte laid ready, the free value is masked and everything else is as the rule says. -/
theorem test_rnd_free : after (start 0xC500 fun s => s.setV 5 9) (fun t => t.pc == 0x202 && t.rndDraws == 1) := by decide +kernel

/-! ### Witnesses: states and operands that meet the hypotheses of the statements -/

/-- A next state with `P`, from a check that evaluates. -/
theorem next_of {r : Result} {P : State → Prop} [DecidablePred P] (h : (nextOf r).any (fun t => decide (P t)) = true) :
    ∃ t, r = .next t ∧ P t := by
  cases r with
  | next t => exact ⟨t, rfl, by simpa [nextOf] using h⟩
  | fault f => simp [nextOf] at h
  | refused q => simp [nextOf] at h

/-- A state in which every instruction of `oneOfEach` completes. -/
def ready : State :=
  { (State.reset.setI 0x300).store 0x300 [0x80] with sp := 1, stack := State.reset.stack.set 0 0x204, keyAnswers := [3] }

/-- An operand choice for every constructor. -/
def oneOfEach : List Instr :=
  [.cls, .ret, .jp 0xABC, .call 0xABC, .seImm 1 0, .sneImm 1 0, .seReg 1 2, .ldImm 1 7, .addImm 1 7,
    .ldReg 1 2, .orReg 1 2, .andReg 1 2, .xorReg 1 2, .addReg 1 2, .sub 1 2, .shr 1 2, .subn 1 2, .shl 1 2, .sneReg 1 2,
    .ldI 0xABC, .jpV0 0xABC, .rnd 1 7, .drw 1 2 1, .skp 1, .sknp 1, .ldVxDt 1, .ldVxK 1, .ldDtVx 1, .ldStVx 1, .addI 1,
    .ldF 1, .bcd 1, .stRegs 1, .ldRegs 1]

theorem witness_EncodeOfDecodeGivesTheWord : decode 0xD12F = .ok (.drw 1 2 15) := by decide +kernel

theorem witness_NoWordMatchesTwoRows : ∃ j : Fin 34, opcodeTable[j].hits 0xD12F = true := by decide +kernel

/-- The three ways an instruction's cycle ends, for the clauses of StepRunsTheDecodedInstruction,
TickFollowsEveryCompletedInstruction and CycleEndsInOneOfThreeWays: completed. -/
theorem witness_step_completes :
    let s := start 0x8124
    s.running ∧ s.pc.toNat ≤ 4094 ∧ decode (s.byte s.pc.toNat ++ s.byte (s.pc.toNat + 1)) = .ok (.addReg 1 2) ∧
    s.fetch = some 0x8124 ∧ ¬ s.waiting ∧ ∃ t, exec (.addReg 1 2) s = .next t ∧ t.running ∧ awaitsKey (.addReg 1 2) s = false :=
  ⟨by decide +kernel, by decide +kernel, by decide +kernel, by decide +kernel, by decide +kernel, next_of (by decide +kernel)⟩

/-- Waiting, also for KeyWaitLastsUntilAnswered. -/
theorem witness_step_waits :
    let s := start 0xF30A
    s.running ∧ s.pc.toNat ≤ 4094 ∧ decode (s.byte s.pc.toNat ++ s.byte (s.pc.toNat + 1)) = .ok (.ldVxK 3) ∧
    s.fetch = some 0xF30A ∧ s.waiting ∧ ∃ t, exec (.ldVxK 3) s = .next t ∧ t.running ∧ awaitsKey (.ldVxK 3) s = true :=
  ⟨by decide +kernel, by decide +kernel, by decide +kernel, by decide +kernel, by decide +kernel, next_of (by decide +kernel)⟩

/-- Faulted, also for FaultsArePreciseHaltingAndSticky. -/
theorem witness_step_faults :
    let s := start 0x00EE
    s.running ∧ s.pc.toNat ≤ 4094 ∧ decode (s.byte s.pc.toNat ++ s.byte (s.pc.toNat + 1)) = .ok .ret ∧ s.fetch = some 0x00EE ∧
    (∃ t, exec .ret s = .next t ∧ t.halted) ∧ ∃ t, step s = .next t ∧ t.halted :=
  ⟨by decide +kernel, by decide +kernel, by decide +kernel, by decide +kernel, next_of (by decide +kernel), next_of (by decide +kernel)⟩

/-- Also for the fetch faults of TickFollowsEveryCompletedInstruction and EachInstructionRaisesOnlyItsOwnFaults. -/
theorem witness_FetchReadsTwoBytesOrFaults : (start 0x6001 fun s => s.jump 4094).pc.toNat ≤ 4094 ∧
    4094 < (State.reset.jump 4095).pc.toNat ∧ (State.reset.jump 4095).running ∧ (State.reset.jump 4095).fetch = none := by
  decide +kernel

theorem witness_UnknownWordOnlyAdvances : (start 0xFFFF fun s => s.jump 4094).running ∧
    (start 0xFFFF fun s => s.jump 4094).fetch = some 0xFFFF ∧ decode 0xFFFF = .error (.unknownOpcode 0xFFFF) := by decide +kernel

/-- Every instruction completes in `ready`: the hypotheses of PcAdvancesByTwoUnlessSkipOrTransfer, for each of its clauses. -/
theorem witness_PcAdvancesByTwoUnlessSkipOrTransfer : ready.running ∧ ∀ i ∈ oneOfEach,
    ∃ t, exec i ready = .next t ∧ t.running ∧ ¬ awaitsKey i ready := by
  have h : ∀ i ∈ oneOfEach,
      (nextOf (exec i ready)).any (fun t => decide (t.running ∧ ¬ awaitsKey i ready)) = true := by decide +kernel
  exact ⟨by decide +kernel, fun i hi => next_of (h i hi)⟩

/-- A faulting operand choice and state for every instruction that can fault, and for both its causes. -/
theorem witness_EachInstructionRaisesOnlyItsOwnFaults : ∀ c ∈ [(Instr.ret, State.reset),
      (.call 0x300, { State.reset with sp := 16 }), (.drw 0 1 2, State.reset.setI 4095),
      (.drw 0 1 1, (State.reset.setV 0 64)), (.skp 2, State.reset.setV 2 16), (.sknp 2, State.reset.setV 2 255),
      (.bcd 5, State.reset.setI 4094), (.bcd 5, State.reset.setI 79), (.stRegs 15, State.reset.setI 4081),
      (.stRegs 0, State.reset.setI 79), (.ldRegs 0, State.reset.setI 4096)],
    c.2.running ∧ ∃ t, exec c.1 c.2 = .next t ∧ t.halted := by
  intro c hc
  simp only [List.mem_cons, List.not_mem_nil, or_false] at hc
  rcases hc with rfl | rfl | rfl | rfl | rfl | rfl | rfl | rfl | rfl | rfl | rfl <;>
    exact ⟨by decide +kernel, next_of (by decide +kernel)⟩

/-- A completed cycle whose pc is above 4094. -/
theorem witness_pc_leaves_memory : (start 0x6001 fun s => s.jump 4094).running ∧
    ∃ t, step (start 0x6001 fun s => s.jump 4094) = .next t ∧ t.running ∧ 4094 < t.pc.toNat :=
  ⟨by decide +kernel, next_of (by decide +kernel)⟩

/-- For the second clause of TickFollowsEveryCompletedInstruction, with the timer's last count in it. -/
theorem witness_TickFollowsEveryCompletedInstruction_unknown :
    let s := start 0x5AB1 fun s => { s with dt := 1, st := 1 }
    s.running ∧ s.fetch = some 0x5AB1 ∧ decode 0x5AB1 = .error (.unknownOpcode 0x5AB1) ∧ s.dt = 1 ∧ s.st = 1 := by decide +kernel

/-- For FaultsAreExactlyThoseOfTheTable: a fetch off the end, an instruction whose check fails, and none that fails. -/
theorem witness_FaultsAreExactlyThoseOfTheTable :
    (State.reset.running ∧ cycleRaises (State.reset.jump 4095) .fetchOutOfRange 4095) ∧
    ((start 0xFF55 fun s => s.setI 4081).running ∧ cycleRaises (start 0xFF55 fun s => s.setI 4081) .dataOutOfRange 4096) ∧
    (start 0x1200).running ∧ ¬ ∃ c n, cycleRaises (start 0x1200) c n := by
  refine ⟨⟨by decide +kernel, .inl ⟨by decide, rfl, rfl⟩⟩,
    ⟨by decide +kernel, .inr ⟨by decide +kernel, .stRegs 15, by decide +kernel, by decide +kernel, by decide +kernel⟩⟩,
    by decide +kernel, ?_⟩
  rintro ⟨c, n, ⟨h, -⟩ | ⟨-, i, h, hi⟩⟩
  · exact absurd h (by decide +kernel)
  · rw [show decode ((start 0x1200).byte (start 0x1200).pc.toNat ++ (start 0x1200).byte ((start 0x1200).pc.toNat + 1)) =
      .ok (.jp 0x200) by decide +kernel] at h
    cases h
    exact hi

theorem witness_RetPopsTheReturnAddress : ready.sp.val ≠ 0 ∧ returnsInRange ready ∧ State.reset.sp.val = 0 ∧
    ({ ready with sp := 16 } : State).sp.val ≠ 0 := by
  refine ⟨by decide +kernel, ?_, by decide +kernel, by decide +kernel⟩
  unfold returnsInRange
  decide +kernel

theorem witness_CallPushesTheReturnAddress : State.reset.sp.val = (0 : Fin 16).val ∧
    ({ State.reset with sp := 15 } : State).sp.val = (15 : Fin 16).val ∧ ({ State.reset with sp := 16 } : State).sp.val = 16 := by
  decide +kernel

/-- The body may be empty: the state after the call meets the hypotheses on the state before the return. -/
theorem witness_CallAndReturnRoundTrip : ({ State.reset with sp := 15 } : State).sp.val < 16 ∧
    ∃ t, exec (.call 0x300) { State.reset with sp := 15 } = .next t ∧
      ∃ b : State, b.sp = t.sp ∧ ∀ k : Fin 16, k.val < t.sp.val → b.stack[k] = t.stack[k] :=
  ⟨by decide +kernel, (next_of (P := fun _ => True) (by decide +kernel)).imp fun t h => ⟨h.1, t, rfl, fun _ _ => rfl⟩⟩

/-- The four cases of the flag writers. -/
theorem witness_alias_cases : (14 : Reg) ≠ 15 ∧ (0 : Reg) ≠ 15 ∧ (15 : Reg) = 15 := by decide

theorem witness_BcdStoresThreeDigitsOrFaults : State.reset.mem.wf ∧ 80 ≤ (State.reset.setI 80).base ∧ (State.reset.setI 4093).base ≤ 4093 ∧
    80 ≤ (State.reset.setI 4093).base ∧ 4093 < (State.reset.setI 4094).base ∧ (State.reset.setI 79).base < 80 := by decide +kernel

/-- For StoreRegistersOrFaults, LoadRegistersOrFaults and GlyphTableIsNeverOverwritten, X = 15. -/
theorem witness_StoreRegistersOrFaults : State.reset.mem.wf ∧ 80 ≤ (State.reset.setI 80).base ∧
    80 ≤ (State.reset.setI 4080).base ∧ (State.reset.setI 4080).base + (15 : Reg).val ≤ 4095 ∧
    4095 < (State.reset.setI 4081).base + (15 : Reg).val ∧ (State.reset.setI 79).base < 80 := by decide +kernel

/-- V-IDX: the store of two registers, read back from the state it leaves. -/
theorem witness_LoadReadsBackWhatStoreWrote :
    ready.mem.wf ∧ 80 ≤ ready.base ∧ ready.base + (15 : Reg).val ≤ 4095 ∧
    ∃ t, exec (.stRegs 15) ready = .next t ∧ ∃ b : State, b.I = t.I ∧ ∀ a, b.byte a = t.byte a :=
  ⟨by decide +kernel, by decide +kernel, by decide +kernel,
    (next_of (P := fun _ => True) (by decide +kernel)).imp fun t h => ⟨h.1, t, rfl, fun _ => rfl⟩⟩

/-- Stores at 0x202 executed at 0x200. -/
theorem witness_FetchSeesStoredBytes :
    let s := State.reset.setI 0x202
    s.mem.wf ∧ 80 ≤ s.base ∧ s.base + (1 : Reg).val ≤ 4095 ∧ (1 : Reg) ≤ 1 ∧ (1 : Reg).val = (0 : Reg).val + 1 ∧
    ∃ t, exec (.stRegs 1) s = .next t ∧ t.pc.toNat = s.base + (0 : Reg).val :=
  ⟨by decide +kernel, by decide +kernel, by decide +kernel, by decide, by decide, next_of (by decide +kernel)⟩

theorem witness_CanonicalMemoriesAreEqualWhenTheyReadEqual :
    ∃ m n : Memory, m.wf ∧ n.wf ∧ ∀ a, m.read a = n.read a :=
  ⟨[(80, 5), (4095, 1)], [(80, 5), (4095, 1)], by decide +kernel, by decide +kernel, fun _ => rfl⟩

/-- V-DRW: the row 0xFF in the bottom right corner; also for the last clause of DrawFaultsInTheOrderOfTheRule. -/
def corner : State := ((((State.reset.setI 4095).setV 0 56).setV 1 31)).store 4095 [0xFF]

theorem witness_DrawTogglesExactlyTheSprite : corner.base + (1 : Fin 16).val ≤ 4096 ∧
    (∀ c r, inSprite corner 0 1 1 c r → c ≤ 63 ∧ r ≤ 31) ∧ inSprite corner 0 1 1 63 31 := by
  have hx : (corner.getV 0).toNat = 56 := by decide +kernel
  have hy : (corner.getV 1).toNat = 31 := by decide +kernel
  refine ⟨by decide +kernel, ?_, ?_⟩
  · rintro c r ⟨j, hj, i, hi, -, rfl, rfl⟩
    rw [hx, hy]
    have : j < 1 := hj
    omega
  · exact ⟨0, by decide, 7, by decide, by decide +kernel, by rw [hx], by rw [hy]⟩

/-- N = 0, with I out of range (V-DRW). -/
theorem witness_DrawTogglesExactlyTheSprite_no_rows : (0 : Fin 16).val = 0 ∧
    ∀ c r, inSprite (State.reset.setI 0xFFFF) 0 1 0 c r → c ≤ 63 ∧ r ≤ 31 :=
  ⟨rfl, fun _ _ ⟨_, hj, _⟩ => absurd hj (Nat.not_lt_zero _)⟩

/-- The first two clauses of the faults of DRW, from V-DRW: the last sprite byte missing, column 64, row 32. -/
theorem witness_DrawFaultsInTheOrderOfTheRule_memory : 0 < (2 : Fin 16).val ∧ 4096 < (State.reset.setI 4095).base + (2 : Fin 16).val := by
  decide +kernel

theorem witness_DrawFaultsInTheOrderOfTheRule_column :
    let s := ((State.reset.setI 0x300).setV 0 57).store 0x300 [0xFF]
    s.base + 1 ≤ 4096 ∧ (s.byte (s.base + 0)).getLsbD (7 - 7) = true ∧ (s.getV 0).toNat + 7 > 63 ∧
    ∀ j' < 1, ∀ i' < 8, (j' < 0 ∨ (j' = 0 ∧ i' < 7)) → (s.byte (s.base + j')).getLsbD (7 - i') = true →
      (s.getV 0).toNat + i' ≤ 63 ∧ (s.getV 1).toNat + j' ≤ 31 := by
  intro s
  have hx : (s.getV 0).toNat = 57 := by decide +kernel
  have hy : (s.getV 1).toNat = 0 := by decide +kernel
  exact ⟨by decide +kernel, by decide +kernel, by decide +kernel, fun j' _ i' _ h _ => by omega⟩

theorem witness_DrawFaultsInTheOrderOfTheRule_row :
    let s := ((State.reset.setI 0x300).setV 1 31).store 0x300 [0x80, 0x80]
    s.base + 2 ≤ 4096 ∧ (s.byte (s.base + 1)).getLsbD (7 - 0) = true ∧ (s.getV 1).toNat + 1 > 31 ∧
    ∀ j' < 2, ∀ i' < 8, (j' < 1 ∨ (j' = 1 ∧ i' < 0)) → (s.byte (s.base + j')).getLsbD (7 - i') = true →
      (s.getV 0).toNat + i' ≤ 63 ∧ (s.getV 1).toNat + j' ≤ 31 := by
  intro s
  have hx : (s.getV 0).toNat = 0 := by decide +kernel
  have hy : (s.getV 1).toNat = 31 := by decide +kernel
  exact ⟨by decide +kernel, by decide +kernel, by decide +kernel, fun j' _ i' _ h _ => by omega⟩

theorem witness_DrawingTwiceRestoresTheScreen : (0 : Reg) ≠ 15 ∧ (1 : Reg) ≠ 15 ∧ corner.running ∧
    ∃ t, exec (.drw 0 1 1) corner = .next t ∧ t.running := ⟨by decide, by decide, by decide +kernel, next_of (by decide +kernel)⟩

theorem witness_KeySkipsTestTheNamedKey : ((State.reset.setV 2 15).getV 2).toNat ≤ 15 ∧ 15 < ((State.reset.setV 2 16).getV 2).toNat := by
  decide +kernel

theorem witness_KeyWaitTakesTheAnswer : (State.reset.answerKey 15).keyAnswers = 15 :: [] ∧ State.reset.keyAnswers = [] := by decide +kernel

/-- For the whole cycles of TimerTransfers. -/
theorem witness_TimerTransfers : (start 0xF307).running ∧ (start 0xF307).fetch = some (encode (.ldVxDt 3)) ∧
    (start 0xF315).running ∧ (start 0xF315).fetch = some (encode (.ldDtVx 3)) ∧
    (start 0xFF18).running ∧ (start 0xFF18).fetch = some (encode (.ldStVx 15)) := by decide +kernel

/-- One cycle of a self-jump: no wait, no FX15, no FX18. -/
theorem witness_TimersCountCompletedCycles :
    let s := start 0x1200 fun s => s.setDt 1
    (∃ t, runs 1 s t ∧ t.running) ∧ (∀ k < 1, ∀ u, runs k s u → ¬ u.waiting) ∧
    (∀ k < 1, ∀ u, runs k s u → ∀ x, u.fetch ≠ some (encode (.ldDtVx x))) ∧
    ∀ k < 1, ∀ u, runs k s u → ∀ x, u.fetch ≠ some (encode (.ldStVx x)) := by
  intro s
  have now : ∀ k < 1, ∀ u, runs k s u → u = s := by
    intro k hk u hu
    obtain rfl : k = 0 := by omega
    exact hu
  refine ⟨?_, ?_, ?_, ?_⟩
  · obtain ⟨t, h, hr⟩ := next_of (r := step s) (P := fun t => t.running) (by decide +kernel)
    exact ⟨t, ⟨t, h, rfl⟩, hr⟩
  · intro k hk u hu; rw [now k hk u hu]; decide +kernel
  · intro k hk u hu; rw [now k hk u hu]; decide +kernel
  · intro k hk u hu; rw [now k hk u hu]; decide +kernel

theorem witness_RandomByteIsMasked : (State.reset.supplyRandom 0xA7).rndSupply = 0xA7 :: [] ∧ State.reset.rndSupply = [] ∧
    (∃ t, exec (.rnd 5 0x0F) State.reset = .next t) ∧ (0x07 : Byte) &&& ~~~(0x0F : Byte) = 0 :=
  ⟨by decide +kernel, by decide +kernel, ⟨_, rfl⟩, by decide⟩

/-- For each part of the state, an instruction that changes it. -/
theorem witness_OnlyTheNamedInstructionsWriteEachPart :
    (∃ t, exec (.bcd 1) (ready.setV 1 9) = .next t ∧ t.mem ≠ (ready.setV 1 9).mem) ∧
    (∃ t, exec (.ldI 0xABC) ready = .next t ∧ t.I ≠ ready.I) ∧
    (∃ t, exec (.call 0xABC) ready = .next t ∧ t.sp ≠ ready.sp ∧ t.stack ≠ ready.stack) ∧
    (∃ t, exec (.ldDtVx 1) (ready.setV 1 9) = .next t ∧ t.dt ≠ ready.dt) ∧
    (∃ t, exec (.ldStVx 1) (ready.setV 1 9) = .next t ∧ t.st ≠ ready.st) ∧
    (∃ t, exec (.drw 1 2 1) ready = .next t ∧ t.fb ≠ ready.fb ∧ t.dirty ≠ ready.dirty) ∧
    (∃ t, exec (.ldVxK 1) ready = .next t ∧ t.getV 1 ≠ ready.getV 1 ∧ t.keyAnswers ≠ ready.keyAnswers) ∧
    (∃ t, exec (.rnd 1 7) ready = .next t ∧ t.rndDraws ≠ ready.rndDraws) ∧
    ∃ t, exec .ret State.reset = .next t ∧ t.fault ≠ State.reset.fault :=
  ⟨next_of (by decide +kernel), next_of (by decide +kernel), next_of (by decide +kernel), next_of (by decide +kernel), next_of (by decide +kernel), next_of (by decide +kernel), next_of (by decide +kernel),
    next_of (by decide +kernel), next_of (by decide +kernel)⟩

theorem witness_KeysMatterOnlyToTheKeySkips : (∃ t, step (start 0x8124) = .next t) ∧
    ∀ x, (start 0x8124).fetch ≠ some (encode (.skp x)) ∧ (start 0x8124).fetch ≠ some (encode (.sknp x)) :=
  ⟨(next_of (P := fun _ => True) (by decide +kernel)).imp fun _ h => h.1, by decide +kernel⟩

theorem witness_DirtyIsNeverReadNorCleared : ({ start 0x00E0 with dirty := true } : State).dirty = true ∧
    ∃ t, step { start 0x00E0 with dirty := true } = .next t :=
  ⟨rfl, (next_of (P := fun _ => True) (by decide +kernel)).imp fun _ h => h.1⟩

theorem witness_ParkedProgramStaysParked : (start 0x1200).parked := ⟨by decide +kernel, 0x200, by decide +kernel, by decide +kernel⟩

/-- Also the image of ResetLeavesTheStateOfTheTable: the longest there is, and one byte more. -/
theorem witness_LoadPlacesTheImage : State.reset.mem.wf ∧ (List.replicate 3584 (0 : Byte)).length ≤ 3584 ∧
    3584 < (List.replicate 3585 (0 : Byte)).length := by
  rw [List.length_replicate, List.length_replicate]
  decide +kernel

/-- A running core and a halted one; the key write reaches the first and not the second (R33). -/
theorem witness_HostTransactionsTouchOnlyTheirPart :
    let s := State.reset.raise .stackUnderflow 0x00EE 0
    State.reset.running ∧ s.halted ∧ nextOf ((Transaction.writeKeys 1).apply s) = some s ∧
    (nextOf ((Transaction.writeKeys 1).apply State.reset)).map State.keys = some 1 := by decide +kernel

/-- The invariant holds in a state in the middle of a call. -/
theorem witness_EveryStepKeepsTheInvariant : Inv ready ∧ ∃ t, step ready = .next t := by
  refine ⟨⟨by decide +kernel, ?_, .inl ⟨by decide +kernel, by decide +kernel⟩⟩,
    (next_of (P := fun _ => True) (by decide +kernel)).imp fun _ h => h.1⟩
  unfold returnsInRange
  decide +kernel

/-- For the step of GlyphTableIsNeverOverwritten: the family's table stands in `ready`. -/
theorem witness_GlyphTableIsNeverOverwritten : Inv ready ∧ glyphIntact familyParams.glyph ready ∧ ∃ t, step ready = .next t :=
  ⟨witness_EveryStepKeepsTheInvariant.1, by unfold glyphIntact; decide +kernel, witness_EveryStepKeepsTheInvariant.2⟩

/-- A state reached by boot with an image, for any parameters: for GlyphTableIsNeverOverwritten, EveryReachableStateIsSound. -/
theorem witness_EveryReachableStateIsSound (p : Params) : ∃ s, Reachable p s := by
  have h : ([0x12, 0x00] : List Byte).length ≤ 3584 := by decide
  refine ⟨(State.resetWith p 0).store 512 [0x12, 0x00], .boot (keys := 0) (image := [0x12, 0x00]) ?_⟩
  unfold boot State.load
  rw [if_pos h]

end Sys2Proof.Tests
end

/-! PROOFS of the family "state": the rules that the statements about the state, its writers, faults, reset and invariant share,
and the proofs that settle them. -/

/-! ### Words: what decodes to an instruction is its encoding (R74 to R76) -/

namespace Sys2Proof

variable {op p : Word} {f : BitVec 4} {i : Instr}

/-- A word of format NNN is rebuilt from its field and the family nibble of the pattern it matches. -/
theorem encNNN_fieldNNN (h : op &&& 0xF000 = p) (hf : p.extractLsb' 12 4 = f) : encNNN f (fieldNNN op) = op := by
  rw [← hf, ← field_of_mask h 12 4 (by decide), word_eq_NNN]

/-- A word of format XNN is rebuilt from its fields. -/
theorem encXNN_fields (h : op &&& 0xF000 = p) (hf : p.extractLsb' 12 4 = f) :
    encXNN f (fieldX op) (fieldNN op) = op := by
  rw [← hf, ← field_of_mask h 12 4 (by decide), word_eq_XNN]

/-- A word of format X is rebuilt from its field and the pattern's trailing byte. -/
theorem encXNN_fieldX {b : Byte} (h : op &&& 0xF0FF = p) (hf : p.extractLsb' 12 4 = f) (hb : p.extractLsb' 0 8 = b) :
    encXNN f (fieldX op) b = op := by
  rw [← hf, ← hb, ← field_of_mask h 12 4 (by decide), ← field_of_mask h 0 8 (by decide)]
  exact word_eq_XNN op

/-- A word of format XY is rebuilt from its fields and the pattern's trailing nibble. -/
theorem encXYN_fields {n : BitVec 4} (h : op &&& 0xF00F = p) (hf : p.extractLsb' 12 4 = f) (hn : p.extractLsb' 0 4 = n) :
    encXYN f (fieldX op) (fieldY op) n = op := by
  rw [← hf, ← hn, ← field_of_mask h 12 4 (by decide), ← field_of_mask h 0 4 (by decide), word_eq_fields]

/-- A word of format XYN is rebuilt from its fields. -/
theorem encXYN_fieldN (h : op &&& 0xF000 = p) (hf : p.extractLsb' 12 4 = f) :
    encXYN f (fieldX op) (fieldY op) (BitVec.ofFin (fieldN op)) = op := by
  rw [← hf, ← field_of_mask h 12 4 (by decide)]
  exact word_eq_fields op

/-- A row of the opcode table builds, from a word that hits it, an instruction whose encoding is that word. -/
def Row.rebuilds (r : Row) : Prop := ∀ op : Word, op &&& r.mask = r.pat → encode (r.build op) = op

theorem rowsFlow_rebuild : ∀ r ∈ rowsFlow, r.rebuilds := by
  simp only [rowsFlow, List.forall_mem_cons, List.not_mem_nil, false_imp_iff, implies_true, and_true]
  refine ⟨fun op h => ?_, fun op h => ?_, fun op h => encNNN_fieldNNN h rfl, fun op h => encNNN_fieldNNN h rfl⟩
  all_goals
    rw [show (0xFFFF : Word) = BitVec.allOnes 16 from rfl, BitVec.and_allOnes] at h
    exact h.symm

theorem rowsSkipLoad_rebuild : ∀ r ∈ rowsSkipLoad, r.rebuilds := by
  simp only [rowsSkipLoad, List.forall_mem_cons, List.not_mem_nil, false_imp_iff, implies_true, and_true]
  exact ⟨fun _ h => encXNN_fields h rfl, fun _ h => encXNN_fields h rfl, fun _ h => encXYN_fields h rfl rfl,
    fun _ h => encXNN_fields h rfl, fun _ h => encXNN_fields h rfl⟩

theorem rowsAlu_rebuild : ∀ r ∈ rowsAlu, r.rebuilds := by
  simp only [rowsAlu, List.forall_mem_cons, List.not_mem_nil, false_imp_iff, implies_true, and_true]
  refine ⟨?_, ?_, ?_, ?_, ?_, ?_, ?_, ?_, ?_⟩
  all_goals exact fun _ h => encXYN_fields h rfl rfl

theorem rowsMixed_rebuild : ∀ r ∈ rowsMixed, r.rebuilds := by
  simp only [rowsMixed, List.forall_mem_cons, List.not_mem_nil, false_imp_iff, implies_true, and_true]
  exact ⟨fun _ h => encXYN_fields h rfl rfl, fun _ h => encNNN_fieldNNN h rfl, fun _ h => encNNN_fieldNNN h rfl,
    fun _ h => encXNN_fields h rfl, fun _ h => encXYN_fieldN h rfl, fun _ h => encXNN_fieldX h rfl rfl,
    fun _ h => encXNN_fieldX h rfl rfl⟩

theorem rowsF_rebuild : ∀ r ∈ rowsF, r.rebuilds := by
  simp only [rowsF, List.forall_mem_cons, List.not_mem_nil, false_imp_iff, implies_true, and_true]
  refine ⟨?_, ?_, ?_, ?_, ?_, ?_, ?_, ?_, ?_⟩
  all_goals exact fun _ h => encXNN_fieldX h rfl rfl

theorem opcodeTable_rebuild : ∀ r ∈ opcodeTable, r.rebuilds := by
  simp only [opcodeTable, List.forall_mem_append]
  exact ⟨⟨⟨⟨rowsFlow_rebuild, rowsSkipLoad_rebuild⟩, rowsAlu_rebuild⟩, rowsMixed_rebuild⟩, rowsF_rebuild⟩

/-- What decodes comes from a row of the table that the word hits. -/
theorem row_of_decode (h : decode op = .ok i) : ∃ r ∈ opcodeTable, op &&& r.mask = r.pat ∧ r.build op = i := by
  unfold decode at h
  split at h <;> cases h
  rename_i r hr
  exact ⟨r, List.mem_of_find?_eq_some hr, by simpa [Row.hits] using List.find?_some hr, rfl⟩

/-- The word is the encoding of what it decodes to: FAULT.fop of an instruction's fault is the fetched word (log 10). -/
theorem encode_of_decode (h : decode op = .ok i) : encode i = op := by
  obtain ⟨r, hr, hp, rfl⟩ := row_of_decode h
  exact opcodeTable_rebuild r hr op hp

/-- Format XNN with the register number written as a numeral. -/
theorem encXNN_eq_append (f : BitVec 4) (x : Reg) (nn : Byte) : encXNN f x nn = f ++ BitVec.ofNat 4 x.val ++ nn := by
  have hx : (BitVec.ofFin x : BitVec 4) = BitVec.ofNat 4 x.val := BitVec.eq_of_toNat_eq (by simp)
  unfold encXNN
  rw [hx]

end Sys2Proof

namespace Sys2Proof.Machine

section
variable {s t : State} {i : Instr} {op : Word}

/-! ### Fetch and the totality of a step -/

/-- The fetch fails exactly above 4094 (R56, R91). -/
theorem fetch_eq_none : s.fetch = none ↔ 4094 < s.pc.toNat := by
  simp [State.fetch]

/-- What is fetched is the two bytes at pc, the high one first. -/
theorem fetch_eq_some : s.fetch = some op ↔ s.pc.toNat ≤ 4094 ∧ s.byte s.pc.toNat ++ s.byte (s.pc.toNat + 1) = op := by
  simp [State.fetch]

/-- A step always answers a next state. -/
theorem step_next (s : State) : ∃ t, step s = .next t := by
  cases hv : s.fault.valid with
  | true => exact ⟨s, step_of_halted hv⟩
  | false =>
    cases hf : s.fetch with
    | none => exact ⟨_, step_of_no_fetch hv hf⟩
    | some op =>
      cases hd : decode op with
      | error r => exact ⟨_, step_of_unknown hv hf hd⟩
      | ok i =>
        obtain ⟨u, hu⟩ := exec_next i s
        exact ⟨_, step_of_instr hv hf hd hu⟩

/-! ### The invariant -/

theorem returnsInRange.of_eq (h : returnsInRange s) (hsp : t.sp = s.sp) (hst : t.stack = s.stack) : returnsInRange t := by
  intro k hk
  rw [hst]
  exact h k (hsp ▸ hk)

/-- Using fewer slots leaves the return addresses in use in range (R101). -/
theorem returnsInRange.of_sp_le (h : returnsInRange s) (hsp : t.sp.val ≤ s.sp.val) (hst : t.stack = s.stack) :
    returnsInRange t := by
  intro k hk
  rw [hst]
  exact h k (by omega)

/-- A call from a pc that can be fetched from pushes an address of at most 4096 (R103). -/
theorem returnsInRange.push (h : returnsInRange s) (hpc : s.pc.toNat ≤ 4094) (free : s.sp.val < 16)
    (hsp : t.sp.val = s.sp.val + 1) (hst : t.stack = s.stack.set s.sp.val s.returnAddress free) : returnsInRange t := by
  intro k hk
  simp only [hst, Fin.getElem_fin, Vector.getElem_set]
  split
  · have hret : s.returnAddress.toNat = s.pc.toNat + 2 := by
      unfold State.returnAddress
      bv_omega
    omega
  · exact h k (by omega)

/-- In a running state the record is the one reset leaves (R33, R41). -/
theorem Inv.fault_eq_none (h : Inv s) (hr : s.running) : s.fault = FaultRecord.none := by
  rcases h.faultRecord with ⟨-, hf⟩ | ⟨hv, -, -⟩
  · exact hf
  · exact absurd hv (by simp [hr])

/-- In a running state the invariant speaks of memory, the stack and the record only. -/
theorem Inv.of_running (h : Inv s) (hr : s.running) (hf : t.fault = s.fault) (hm : t.mem.wf) (hret : returnsInRange t) :
    Inv t where
  memCanonical := hm
  returns := hret
  faultRecord := .inl ⟨hf ▸ hr, hf ▸ h.fault_eq_none hr⟩

/-- What touches none of memory, the stack and the record keeps the invariant of a running state. -/
theorem Inv.of_eq (h : Inv s) (hr : s.running) (hf : t.fault = s.fault) (hm : t.mem = s.mem) (hsp : t.sp = s.sp)
    (hst : t.stack = s.stack) : Inv t :=
  h.of_running hr hf (hm ▸ h.memCanonical) (h.returns.of_eq hsp hst)

/-- Taking a fault keeps the invariant: the record names a cause of the table and the pc (R181). -/
theorem Inv.raise (h : Inv s) (c : Cause) (op : Word) (n : Nat) : Inv (s.raise c op n) where
  memCanonical := h.memCanonical
  returns := h.returns.of_eq rfl rfl
  faultRecord := .inr ⟨rfl, ⟨c, rfl⟩, rfl⟩

/-- Every instruction that was fetched keeps the invariant. -/
theorem exec_keeps_inv (h : Inv s) (hr : s.running) (hpc : s.pc.toNat ≤ 4094) (he : exec i s = .next t) : Inv t := by
  rcases exec_cases he with ⟨c, n, rfl⟩ | ⟨hf, hrest⟩
  · exact h.raise c (encode i) n
  · rcases hrest with ⟨hm, hsp, hst⟩ | ⟨bytes, -, hlen, hm, hsp, hst⟩ | ⟨-, hm, hsp, hst⟩ | ⟨free, hm, hsp, hst⟩
    · exact h.of_eq hr hf hm hsp hst
    · exact h.of_running hr hf (hm ▸ Memory.store_wf h.memCanonical hlen) (h.returns.of_eq hsp hst)
    · exact h.of_running hr hf (hm ▸ h.memCanonical) (h.returns.of_sp_le (by omega) hst)
    · exact h.of_running hr hf (hm ▸ h.memCanonical) (h.returns.push hpc free hsp hst)

/-- The end of a cycle keeps the invariant: the tick is taken by running cores only. -/
theorem conclude_keeps_inv (h : Inv t) : Inv (conclude i s t).1 := by
  rcases conclude_cases i s t with ⟨-, hc⟩ | ⟨-, -, hc⟩ | ⟨hr, -, hc⟩ <;> rw [hc]
  · exact h
  · exact h
  · exact h.of_eq hr rfl rfl rfl rfl

theorem step_keeps_inv (h : Inv s) (hs : step s = .next t) : Inv t := by
  rcases step_cases hs with ⟨-, rfl⟩ | ⟨-, -, rfl⟩ | ⟨op, r, hr, -, -, rfl⟩ | ⟨op, i, u, hr, hf, -, he, rfl⟩
  · exact h
  · exact h.raise _ _ _
  · exact h.of_eq hr rfl rfl rfl rfl
  · exact conclude_keeps_inv (exec_keeps_inv h hr (fetch_eq_some.1 hf).1 he)

/-- A transaction of the host keeps the invariant: the writes touch no part that it speaks of. -/
theorem transaction_keeps_inv {x : Transaction} (h : Inv s) (hx : x.apply s = .next t) : Inv t := by
  rcases Transaction.apply_cases hx with hs | ⟨-, rfl⟩ | ⟨hr, ⟨keys, rfl⟩ | rfl | ⟨k, rfl⟩ | ⟨b, rfl⟩⟩
  · exact step_keeps_inv h hs
  · exact h
  all_goals exact h.of_eq hr rfl rfl rfl rfl

/-- A state with an empty stack and the record of reset has the invariant if its memory is canonical. -/
theorem Inv.of_reset (hm : s.mem.wf) (hsp : s.sp = 0) (hf : s.fault = FaultRecord.none) : Inv s where
  memCanonical := hm
  returns k hk := by simp [hsp] at hk
  faultRecord := .inl ⟨hf ▸ rfl, hf⟩

theorem State.resetWith_inv (p : Params) (keys : BitVec 16) : Inv (State.resetWith p keys) :=
  .of_reset (State.resetWith_mem_wf p keys) rfl rfl

theorem State.hostReset_inv (s : State) (p : Params) (keys : BitVec 16) : Inv (s.hostReset p keys) :=
  .of_reset (State.resetWith_mem_wf p keys) rfl rfl

/-- A load keeps the invariant: an accepted image ends inside memory (R205). -/
theorem load_keeps_inv {image : List Byte} (h : Inv s) (hl : s.load image = some t) : Inv t := by
  unfold State.load at hl
  split at hl <;> cases hl
  exact ⟨Memory.store_wf h.memCanonical (by omega), h.returns.of_eq rfl rfl, h.faultRecord⟩

theorem Reachable.inv {p : Params} (h : Reachable p s) : Inv s := by
  induction h with
  | boot hb => exact load_keeps_inv (State.resetWith_inv p _) hb
  | transact _ x hx ih => exact transaction_keeps_inv ih hx
  | reboot _ hl _ => exact load_keeps_inv (State.hostReset_inv _ p _) hl

/-! ### Frames: what each operation leaves unchanged, part by part -/

theorem unchangedBut.refl {changed : Part → Prop} : unchangedBut changed s s := by
  intro part _
  cases part
  case random => exact ⟨rfl, rfl⟩
  all_goals rfl

theorem unchangedBut.advance {changed : Part → Prop} (h : unchangedBut changed s t) (hpc : changed .pc) :
    unchangedBut changed s t.advance := by
  intro part hp
  cases part
  case pc => exact absurd hpc hp
  all_goals exact h _ hp

theorem unchangedBut.setV {changed : Part → Prop} {x : Reg} (h : unchangedBut changed s t) (hx : changed (.reg x)) (b : Byte) :
    unchangedBut changed s (t.setV x b) := by
  intro part hp
  cases part
  case reg r =>
    have hr : r ≠ x := by rintro rfl; exact hp hx
    exact (t.getV_setV_ne hr b).trans (h _ hp)
  all_goals exact h _ hp

theorem unchangedBut.setKeyAnswers {changed : Part → Prop} (h : unchangedBut changed s t) (hk : changed .keyAnswers)
    (l : List Reg) : unchangedBut changed s { t with keyAnswers := l } := by
  intro part hp
  cases part
  case keyAnswers => exact absurd hk hp
  all_goals exact h _ hp

theorem unchangedBut.setRandom {changed : Part → Prop} (h : unchangedBut changed s t) (hk : changed .random)
    (l : List Byte) (n : Nat) : unchangedBut changed s { t with rndSupply := l, rndDraws := n } := by
  intro part hp
  cases part
  case random => exact absurd hk hp
  all_goals exact h _ hp

theorem unchangedBut.writeKeys {changed : Part → Prop} (h : unchangedBut changed s t) (hk : changed .KEYS) (keys : BitVec 16) :
    unchangedBut changed s (t.writeKeys keys) := by
  intro part hp
  cases part
  case KEYS => exact absurd hk hp
  all_goals exact h _ hp

theorem unchangedBut.clearDirty {changed : Part → Prop} (h : unchangedBut changed s t) (hd : changed .DIRTY) :
    unchangedBut changed s t.clearDirty := by
  intro part hp
  cases part
  case DIRTY => exact absurd hd hp
  all_goals exact h _ hp

theorem unchangedBut.raise {changed : Part → Prop} (h : unchangedBut changed s t) (hf : changed .FAULT) (c : Cause) (op : Word)
    (n : Nat) : unchangedBut changed s (t.raise c op n) := by
  intro part hp
  cases part
  case FAULT => exact absurd hf hp
  all_goals exact h _ hp

/-! ### Faults: which check of the table an instruction failed (R180, R182) -/

/-- The first target off the grid: no target before it in scan order is off the grid (R153). -/
theorem of_find_offGrid {ts : List (Nat × Nat)} (hs : ts.Pairwise scannedBefore) {u : Nat × Nat}
    (h : ts.find? offGrid = some u) :
    u ∈ ts ∧ offGrid u = true ∧ ∀ w ∈ ts, scannedBefore w u → offGrid w = false := by
  refine ⟨List.mem_of_find?_eq_some h, List.find?_some h, ?_⟩
  obtain ⟨-, before, after, rfl, hbefore⟩ := List.find?_eq_some_iff_append.1 h
  intro w hw hwu
  obtain ⟨-, htail, -⟩ := List.pairwise_append.1 hs
  rcases List.mem_append.1 hw with hw | hw
  · simpa using hbefore w hw
  · exfalso
    unfold scannedBefore at hwu
    rcases List.mem_cons.1 hw with rfl | hw
    · omega
    · have huw := (List.pairwise_cons.1 htail).1 w hw
      unfold scannedBefore at huw
      omega

/-- The sprite's targets are those of the statement's `inSprite`. -/
theorem mem_sprite {x y : Reg} {n : Fin 16} {c r : Nat} : (c, r) ∈ s.sprite x y n ↔ inSprite s x y n c r :=
  mem_spriteTargets

/-- DXYN's draw check fails at the first set bit off the grid, and only where the memory check has passed. -/
theorem instrRaises_drw_of_find {x y : Reg} {n : Fin 16} {u : Nat × Nat} (hl : checkLoads s.base n.val = none)
    (hu : (s.sprite x y n).find? offGrid = some u) : instrRaises s (.drw x y n) .drawOutOfRange (pixelIndex u) := by
  obtain ⟨hmem, hoff, hfirst⟩ := of_find_offGrid (spriteTargets_inOrder _ _ _ _ _) hu
  have hin : inSprite s x y n u.1 u.2 := mem_sprite.1 hmem
  have hbase : s.base + n.val ≤ 4096 := by
    obtain ⟨j, hj, -⟩ := hin
    rcases checkLoads_eq_none.1 hl with h0 | h <;> omega
  refine ⟨hbase, u.1, u.2, hin, by simpa [offGrid] using hoff, rfl, fun c' r' hin' hbefore => ?_⟩
  exact offGrid_eq_false.1 (hfirst (c', r') (mem_sprite.2 hin') hbefore)

/-- An instruction raises a fault only where its check of the table fails, and records that check's number; or it leaves FAULT
alone. -/
theorem exec_raises_or_keeps_fault (h : exec i s = .next t) :
    (∃ c n, instrRaises s i c n ∧ t = s.raise c (encode i) n) ∨ t.fault = s.fault := by
  cases i
  all_goals simp only [exec] at h
  case ret =>
    unfold execRet at h
    split at h <;> cases h
    · exact .inl ⟨.stackUnderflow, 0, ⟨‹_›, rfl⟩, rfl⟩
    · exact .inr rfl
  case call =>
    unfold execCall at h
    split at h <;> cases h
    · exact .inr rfl
    · exact .inl ⟨.stackOverflow, 16, ⟨by omega, rfl⟩, rfl⟩
  case skp x =>
    unfold execSkp at h
    split at h <;> cases h
    · exact .inl ⟨.keyIndexOutOfRange, s.keyIndex x, ⟨‹_›, rfl⟩, rfl⟩
    · exact .inr rfl
  case sknp x =>
    unfold execSknp at h
    split at h <;> cases h
    · exact .inl ⟨.keyIndexOutOfRange, s.keyIndex x, ⟨‹_›, rfl⟩, rfl⟩
    · exact .inr rfl
  case bcd x =>
    unfold execBcd at h
    split at h <;> cases h
    · rename_i c a hc
      obtain ⟨-, ⟨rfl, hlow, rfl⟩ | ⟨rfl, hhigh, rfl⟩⟩ := (checkStores_eq_some (by omega)).1 hc
      · exact .inl ⟨.glyphWrite, _, ⟨hlow, rfl⟩, rfl⟩
      · exact .inl ⟨.dataOutOfRange, _, ⟨by omega, rfl⟩, rfl⟩
    · exact .inr rfl
  case stRegs x =>
    unfold execStRegs at h
    split at h <;> cases h
    · rename_i c a hc
      unfold regCount at hc
      obtain ⟨-, ⟨rfl, hlow, rfl⟩ | ⟨rfl, hhigh, rfl⟩⟩ := (checkStores_eq_some (by omega)).1 hc
      · exact .inl ⟨.glyphWrite, _, ⟨hlow, rfl⟩, rfl⟩
      · exact .inl ⟨.dataOutOfRange, _, ⟨by omega, rfl⟩, rfl⟩
    · exact .inr rfl
  case ldRegs x =>
    unfold execLdRegs at h
    split at h <;> cases h
    · rename_i a ha
      unfold regCount at ha
      obtain ⟨-, hhigh, rfl⟩ := checkLoads_eq_some.1 ha
      exact .inl ⟨.dataOutOfRange, _, ⟨by omega, rfl⟩, rfl⟩
    · obtain ⟨w, hw⟩ := s.loadRegs_eq s.base (regCount x)
      rw [hw]
      exact .inr rfl
  case drw x y n =>
    unfold execDrw at h
    split at h
    · rename_i a ha
      cases h
      obtain ⟨hn, hhigh, rfl⟩ := checkLoads_eq_some.1 ha
      exact .inl ⟨.dataOutOfRange, _, ⟨hn, hhigh, rfl⟩, rfl⟩
    · split at h <;> cases h
      · exact .inl ⟨_, _, instrRaises_drw_of_find ‹_› ‹_›, rfl⟩
      · exact .inr rfl
  case ldVxK =>
    unfold execLdVxK at h
    split at h <;> cases h <;> exact .inr rfl
  case rnd =>
    cases h
    obtain ⟨l, n, hd⟩ := s.drawRandom_state
    rw [hd]
    exact .inr rfl
  all_goals
    cases h
    exact .inr rfl

end

/-! ### The invariant's statements settled -/

/-- Settles O51: each end of a cycle keeps the invariant, an executed instruction by `exec_keeps_inv`. -/
theorem everyStepKeepsTheInvariant : Obligations.EveryStepKeepsTheInvariant := by
  unfold Obligations.EveryStepKeepsTheInvariant
  exact fun _ _ => step_keeps_inv

/-- Settles O52: the stack is empty and the record clear after reset; `State.reset` is one such reset. -/
theorem resetHasTheInvariant : Obligations.ResetHasTheInvariant := by
  unfold Obligations.ResetHasTheInvariant
  exact ⟨State.reset_eq_resetWith ▸ State.resetWith_inv familyParams 0, State.resetWith_inv⟩

/-- Settles O54, by induction on how the state was reached; its next cycle is the transaction `requestCycle`. -/
theorem everyReachableStateIsSound : Obligations.EveryReachableStateIsSound := by
  unfold Obligations.EveryReachableStateIsSound
  intro p s h
  obtain ⟨t, ht⟩ := step_next s
  exact ⟨h.inv, t, ht, h.transact .requestCycle (Transaction.apply_requestCycle.trans ht)⟩

section
variable {s t : State} {i : Instr} {op : Word} {c : Cause} {n : Nat}

/-! ### A faulted cycle -/

/-- A target of a sprite has a column below 263 and a row below 271 (R153). -/
theorem inSprite_lt {x y : Reg} {k : Fin 16} {column row : Nat} (h : inSprite s x y k column row) :
    column < 263 ∧ row < 271 := by
  obtain ⟨j, hj, i, hi, -, hc, hr⟩ := h
  omega

/-- The number that a failing check records fits the 17 bits of FAULT.finfo (R33, R180). -/
theorem instrRaises_lt (h : instrRaises s i c n) : n < 2 ^ 17 := by
  have hbase : s.base < 2 ^ 16 := s.I.isLt
  unfold instrRaises at h
  split at h
  case h_11 =>
    obtain ⟨-, column, row, hin, -, rfl, -⟩ := h
    have := inSprite_lt hin
    omega
  case h_12 => exact h.elim
  all_goals omega

theorem observations_of_halted (h : s.halted) : observations s = [] := by
  simp [observations, cycle, h]

theorem observations_of_no_fetch (h : s.running) (hf : s.fetch = none) :
    observations s = [(s.raise .fetchOutOfRange 0 s.pc.toNat).faultSeen] := by
  simp [observations, cycle, h, hf, fetchFault]

theorem observations_of_unknown {r : DecodeReject} (h : s.running) (hf : s.fetch = some op) (hd : decode op = .error r) :
    observations s = .unknownOpcode s.pc op :: s.advance.tickEdges := by
  simp [observations, cycle, h, hf, hd, unknownCycle]

theorem observations_of_instr (h : s.running) (hf : s.fetch = some op) (hd : decode op = .ok i) (he : exec i s = .next t) :
    observations s = (conclude i s t).2 := by
  simp [observations, cycle, h, hf, hd, instrCycle, he]

/-- What an instruction that faults does to a running core: it raises one of its row's faults, for a check that fails. -/
theorem exec_of_halted (hr : s.running) (he : exec i s = .next t) (ht : t.halted) :
    ∃ c n, instrRaises s i c n ∧ t = s.raise c (encode i) n := by
  rcases exec_raises_or_keeps_fault he with h | hf
  · exact h
  · exact absurd ht (by simp [hf, hr])

/-- What a cycle that faults does to a running core: a check of the table fails, its record is written with the fetched word (0
where the fetch itself failed), and the fault is the one observation. -/
theorem step_of_fault (hr : s.running) (hs : step s = .next t) (ht : t.halted) :
    ∃ c n, cycleRaises s c n ∧ n < 2 ^ 17 ∧ t = s.raise c (s.fetch.getD 0) n ∧ observations s = [t.faultSeen] := by
  rcases step_cases hs with ⟨hv, -⟩ | ⟨-, hf, rfl⟩ | ⟨op, r, -, -, -, rfl⟩ | ⟨op, i, u, -, hf, hd, he, rfl⟩
  · exact absurd hv (by simp [hr])
  · refine ⟨.fetchOutOfRange, s.pc.toNat, .inl ⟨fetch_eq_none.1 hf, rfl, rfl⟩, by omega, by rw [hf]; rfl, ?_⟩
    exact observations_of_no_fetch hr hf
  · exact absurd ht (by simp [hr])
  · have hu : u.halted := by
      rcases conclude_cases i s u with ⟨hu, -⟩ | ⟨-, -, hc⟩ | ⟨-, -, hc⟩
      · exact hu
      · exact hc ▸ ht
      · rw [hc] at ht
        exact ht
    obtain ⟨c, n, hc, rfl⟩ := exec_of_halted hr he hu
    obtain ⟨hpc, hop⟩ := fetch_eq_some.1 hf
    refine ⟨c, n, .inr ⟨hpc, i, hop ▸ hd, hc⟩, instrRaises_lt hc, ?_, observations_of_instr hr hf hd he⟩
    rw [hf, Option.getD_some, ← encode_of_decode hd]
    rfl

/-- A halted core answers every further cycle request unchanged (R34, R181). -/
theorem runs_of_halted (h : s.halted) (n : Nat) : runs n s s := by
  induction n with
  | zero => rfl
  | succ n ih => exact ⟨s, step_of_halted h, ih⟩

end

/-- Settles O13: a cycle that faults is `State.raise` of the failing check (`step_of_fault`), and a halted core stays as it is. -/
theorem faultsArePreciseHaltingAndSticky : Obligations.FaultsArePreciseHaltingAndSticky := by
  unfold Obligations.FaultsArePreciseHaltingAndSticky
  intro s t hr hs ht
  obtain ⟨c, n, hc, hn, rfl, hobs⟩ := step_of_fault hr hs ht
  exact ⟨.raise .refl (by rfl) c _ n, rfl, ⟨c, n, hc, hn, rfl⟩, hobs, runs_of_halted ht, observations_of_halted ht,
    fun _ => Transaction.apply_of_halted ht, fun _ _ => rfl⟩

/-! ### Which instructions write which part (R21 to R33, R52, R183) -/

/-- Between `s` and `t` only such parts have changed as `i` may write. Every operation of an instruction's meaning keeps this
where the instruction may write the operation's part, so that it holds of the whole by going along the operations. -/
structure WritesOnlyOwnParts (i : Instr) (s t : State) : Prop where
  keys : t.keys = s.keys
  reg : ∀ r : Reg, t.getV r ≠ s.getV r → mayWriteReg i r
  fault : t.fault ≠ s.fault → t.fault.valid = true ∧ ∃ c ∈ ownCauses i, t.fault.cause = c.code
  keyAnswers : t.keyAnswers ≠ s.keyAnswers → ∃ x, i = .ldVxK x
  random : t.rndSupply ≠ s.rndSupply ∨ t.rndDraws ≠ s.rndDraws → ∃ x nn, i = .rnd x nn
  mem : t.mem ≠ s.mem → ∃ x, i = .bcd x ∨ i = .stRegs x
  index : t.I ≠ s.I → (∃ nnn, i = .ldI nnn) ∨ ∃ x, i = .addI x ∨ i = .ldF x
  sp : t.sp ≠ s.sp → i = .ret ∨ ∃ nnn, i = .call nnn
  stack : t.stack ≠ s.stack → ∃ nnn, i = .call nnn
  dt : t.dt ≠ s.dt → ∃ x, i = .ldDtVx x
  st : t.st ≠ s.st → ∃ x, i = .ldStVx x
  fb : t.fb ≠ s.fb → i = .cls ∨ ∃ x y n, i = .drw x y n
  dirty : t.dirty ≠ s.dirty → t.dirty = true ∧ ∃ x y n, i = .drw x y n

namespace WritesOnlyOwnParts
variable {i : Instr} {s t : State}

theorem refl : WritesOnlyOwnParts i s s where
  keys := rfl
  reg _ h := absurd rfl h
  fault h := absurd rfl h
  keyAnswers h := absurd rfl h
  random h := h.elim (absurd rfl) (absurd rfl)
  mem h := absurd rfl h
  index h := absurd rfl h
  sp h := absurd rfl h
  stack h := absurd rfl h
  dt h := absurd rfl h
  st h := absurd rfl h
  fb h := absurd rfl h
  dirty h := absurd rfl h

theorem jump (h : WritesOnlyOwnParts i s t) (w : Word) : WritesOnlyOwnParts i s (t.jump w) := { h with }

theorem advance (h : WritesOnlyOwnParts i s t) : WritesOnlyOwnParts i s t.advance := { h with }

theorem skipIf (h : WritesOnlyOwnParts i s t) (c : Bool) : WritesOnlyOwnParts i s (t.skipIf c) := { h with }

theorem setV (h : WritesOnlyOwnParts i s t) {x : Reg} (hx : mayWriteReg i x) (b : Byte) :
    WritesOnlyOwnParts i s (t.setV x b) :=
  { h with
    reg := fun r hr => by
      by_cases hrx : r = x
      · exact hrx ▸ hx
      · rw [t.getV_setV_ne hrx] at hr
        exact h.reg r hr }

theorem loadRegs (h : WritesOnlyOwnParts i s t) {a n : Nat} (hn : ∀ r : Reg, r.val < n → mayWriteReg i r) :
    WritesOnlyOwnParts i s (t.loadRegs a n) := by
  have hreg : ∀ r, (t.loadRegs a n).getV r ≠ s.getV r → mayWriteReg i r := by
    intro r hr
    rw [t.loadRegs_getV] at hr
    split at hr
    · exact hn r ‹_›
    · exact h.reg r hr
  obtain ⟨w, hw⟩ := t.loadRegs_eq a n
  rw [hw] at hreg ⊢
  exact { h with reg := hreg }

theorem raise (h : WritesOnlyOwnParts i s t) {c : Cause} (hc : c ∈ ownCauses i) (op : Word) (n : Nat) :
    WritesOnlyOwnParts i s (t.raise c op n) :=
  { h with fault := fun _ => ⟨rfl, c, hc, rfl⟩ }

theorem setI (h : WritesOnlyOwnParts i s t) (hi : (∃ nnn, i = .ldI nnn) ∨ ∃ x, i = .addI x ∨ i = .ldF x) (w : Word) :
    WritesOnlyOwnParts i s (t.setI w) :=
  { h with index := fun _ => hi }

theorem store (h : WritesOnlyOwnParts i s t) (hi : ∃ x, i = .bcd x ∨ i = .stRegs x) (a : Nat) (bytes : List Byte) :
    WritesOnlyOwnParts i s (t.store a bytes) :=
  { h with mem := fun _ => hi }

theorem drop (h : WritesOnlyOwnParts i s t) (hi : i = .ret) : WritesOnlyOwnParts i s t.drop :=
  { h with sp := fun _ => .inl hi }

theorem push (h : WritesOnlyOwnParts i s t) (hi : ∃ nnn, i = .call nnn) (w : Word) (free : t.sp.val < 16) :
    WritesOnlyOwnParts i s (t.push w free) :=
  { h with sp := fun _ => .inr hi, stack := fun _ => hi }

theorem setDt (h : WritesOnlyOwnParts i s t) (hi : ∃ x, i = .ldDtVx x) (b : Byte) : WritesOnlyOwnParts i s (t.setDt b) :=
  { h with dt := fun _ => hi }

theorem setSt (h : WritesOnlyOwnParts i s t) (hi : ∃ x, i = .ldStVx x) (b : Byte) : WritesOnlyOwnParts i s (t.setSt b) :=
  { h with st := fun _ => hi }

theorem clear (h : WritesOnlyOwnParts i s t) (hi : i = .cls) (f : Framebuffer) :
    WritesOnlyOwnParts i s { t with fb := f } :=
  { h with fb := fun _ => .inl hi }

theorem draw (h : WritesOnlyOwnParts i s t) (hi : ∃ x y n, i = .drw x y n) (f : Framebuffer) :
    WritesOnlyOwnParts i s { t with fb := f, dirty := true } :=
  { h with fb := fun _ => .inr hi, dirty := fun _ => ⟨rfl, hi⟩ }

theorem setKeyAnswers (h : WritesOnlyOwnParts i s t) (hi : ∃ x, i = .ldVxK x) (l : List Reg) :
    WritesOnlyOwnParts i s { t with keyAnswers := l } :=
  { h with keyAnswers := fun _ => hi }

theorem drawRandom (h : WritesOnlyOwnParts i s t) (hi : ∃ x nn, i = .rnd x nn) : WritesOnlyOwnParts i s t.drawRandom.2 := by
  obtain ⟨l, n, hd⟩ := t.drawRandom_state
  rw [hd]
  exact { h with random := fun _ => hi }

end WritesOnlyOwnParts

section
variable {s t : State} {i : Instr}

/-- The causes of a store check that fails (R55). -/
theorem cause_of_checkStores {a n p : Nat} {c : Cause} (h : checkStores a n = some (c, p)) (hn : n ≤ 16) :
    c = .dataOutOfRange ∨ c = .glyphWrite := by
  obtain ⟨-, ⟨hc, -⟩ | ⟨hc, -⟩⟩ := (checkStores_eq_some hn).1 h
  · exact .inr hc
  · exact .inl hc

/-- Each instruction's operations write only parts that are its own. -/
theorem exec_writesOnlyOwnParts (h : exec i s = .next t) : WritesOnlyOwnParts i s t := by
  have before : WritesOnlyOwnParts i s s := .refl
  cases i
  all_goals simp only [exec] at h
  case cls => cases h; exact (before.clear rfl _).advance
  case jp | jpV0 => cases h; exact before.jump _
  case seImm | sneImm | seReg | sneReg => cases h; exact before.skipIf _
  case ldImm | addImm | ldReg | orReg | andReg | xorReg | ldVxDt => cases h; exact (before.setV rfl _).advance
  case addReg | sub | shr | subn | shl => cases h; exact ((before.setV (.inr rfl) _).setV (.inl rfl) _).advance
  case ldI => cases h; exact (before.setI (.inl ⟨_, rfl⟩) _).advance
  case ldF => cases h; exact (before.setI (.inr ⟨_, .inr rfl⟩) _).advance
  case addI => cases h; exact ((before.setV rfl _).setI (.inr ⟨_, .inl rfl⟩) _).advance
  case ldDtVx => cases h; exact (before.setDt ⟨_, rfl⟩ _).advance
  case ldStVx => cases h; exact (before.setSt ⟨_, rfl⟩ _).advance
  case rnd => cases h; exact ((before.drawRandom ⟨_, _, rfl⟩).setV rfl _).advance
  case ret =>
    unfold execRet at h
    split at h <;> cases h
    · exact before.raise (by simp [ownCauses]) _ _
    · exact (before.drop rfl).jump _
  case call =>
    unfold execCall at h
    split at h <;> cases h
    · exact (before.push ⟨_, rfl⟩ _ _).jump _
    · exact before.raise (by simp [ownCauses]) _ _
  case skp =>
    unfold execSkp at h
    split at h <;> cases h
    · exact before.raise (by simp [ownCauses]) _ _
    · exact before.skipIf _
  case sknp =>
    unfold execSknp at h
    split at h <;> cases h
    · exact before.raise (by simp [ownCauses]) _ _
    · exact before.skipIf _
  case bcd =>
    unfold execBcd at h
    split at h <;> cases h
    · rename_i hc
      exact before.raise (by simp [ownCauses, cause_of_checkStores hc (by omega)]) _ _
    · exact (before.store ⟨_, .inl rfl⟩ _ _).advance
  case stRegs x =>
    unfold execStRegs at h
    split at h <;> cases h
    · rename_i hc
      exact before.raise (by simp [ownCauses, cause_of_checkStores hc x.isLt]) _ _
    · exact (before.store ⟨_, .inr rfl⟩ _ _).advance
  case ldRegs x =>
    unfold execLdRegs at h
    split at h <;> cases h
    · exact before.raise (by simp [ownCauses]) _ _
    · exact (before.loadRegs fun _ => Nat.le_of_lt_succ).advance
  case ldVxK =>
    unfold execLdVxK at h
    split at h <;> cases h
    · exact before
    · exact ((before.setKeyAnswers ⟨_, rfl⟩ _).setV rfl _).advance
  case drw =>
    unfold execDrw at h
    split at h
    · cases h
      exact before.raise (by simp [ownCauses]) _ _
    · split at h <;> cases h
      · exact before.raise (by simp [ownCauses]) _ _
      · exact ((before.setV rfl _).draw ⟨_, _, _, rfl⟩ _).advance

end

/-- Settles O44: `exec_writesOnlyOwnParts`, part by part. -/
theorem onlyTheNamedInstructionsWriteEachPart : Obligations.OnlyTheNamedInstructionsWriteEachPart := by
  unfold Obligations.OnlyTheNamedInstructionsWriteEachPart
  intro i s t h
  have w := exec_writesOnlyOwnParts h
  exact ⟨w.keys, w.reg, w.fault, w.keyAnswers, w.random, w.mem, w.index, w.sp, w.stack, w.dt, w.st, w.fb, w.dirty⟩

/-! ### KEYS and DIRTY: the parts of a state that a cycle does not look at (R30, R31, R213, R215) -/

/-- A state with other values in the two parts that the host may write between cycles, KEYS and DIRTY. -/
def State.withHostParts (s : State) (keys : BitVec 16) (dirty : Bool) : State := { s with keys := keys, dirty := dirty }

section
variable {s t : State} {i : Instr} {op : Word}

theorem State.writeKeys_eq (s : State) (keys : BitVec 16) : s.writeKeys keys = s.withHostParts keys s.dirty := rfl
theorem State.clearDirty_eq (s : State) : s.clearDirty = s.withHostParts s.keys false := rfl

@[simp] theorem State.withHostParts_fault (keys : BitVec 16) (d : Bool) : (s.withHostParts keys d).fault = s.fault := rfl
@[simp] theorem State.withHostParts_keyAnswers (keys : BitVec 16) (d : Bool) :
    (s.withHostParts keys d).keyAnswers = s.keyAnswers := rfl
@[simp] theorem State.withHostParts_base (keys : BitVec 16) (d : Bool) : (s.withHostParts keys d).base = s.base := rfl
@[simp] theorem State.withHostParts_sprite (keys : BitVec 16) (d : Bool) (x y : Reg) (n : Fin 16) :
    (s.withHostParts keys d).sprite x y n = s.sprite x y n := rfl

/-- Loading registers reads neither KEYS nor DIRTY. -/
theorem State.loadRegs_withHostParts (s : State) (keys : BitVec 16) (d : Bool) (a n : Nat) :
    (s.withHostParts keys d).loadRegs a n = (s.loadRegs a n).withHostParts keys d := by
  induction n with
  | zero => rfl
  | succ n ih =>
    unfold State.loadRegs
    rw [ih]
    rfl

/-- Drawing a random byte reads neither KEYS nor DIRTY. -/
theorem State.drawRandom_withHostParts (s : State) (keys : BitVec 16) (d : Bool) :
    (s.withHostParts keys d).drawRandom = (s.drawRandom.1, s.drawRandom.2.withHostParts keys d) := by
  unfold State.drawRandom
  cases h : s.rndSupply <;> simp [State.withHostParts, h]

/-- An instruction does the same whatever DIRTY is, and, but for EX9E and EXA1, whatever KEYS is: the two parts keep their
values, or DIRTY is set, the same in both states. -/
theorem exec_withHostParts (h : exec i s = .next t) (keys : BitVec 16) (d : Bool)
    (hk : ∀ x, i = .skp x ∨ i = .sknp x → keys = s.keys) :
    ∃ drew : Bool, t.dirty = (drew || s.dirty) ∧
      exec i (s.withHostParts keys d) = .next (t.withHostParts keys (drew || d)) := by
  cases i
  all_goals simp only [exec] at h ⊢
  case ret =>
    unfold execRet at h
    split at h <;> cases h
    · exact ⟨false, rfl, if_pos ‹_›⟩
    · exact ⟨false, rfl, if_neg ‹_›⟩
  case call =>
    unfold execCall at h
    split at h <;> cases h
    · exact ⟨false, rfl, dif_pos ‹_›⟩
    · exact ⟨false, rfl, dif_neg ‹_›⟩
  case skp x =>
    obtain rfl := hk x (.inl rfl)
    unfold execSkp at h
    split at h <;> cases h
    · exact ⟨false, rfl, if_pos ‹_›⟩
    · exact ⟨false, rfl, if_neg ‹_›⟩
  case sknp x =>
    obtain rfl := hk x (.inr rfl)
    unfold execSknp at h
    split at h <;> cases h
    · exact ⟨false, rfl, if_pos ‹_›⟩
    · exact ⟨false, rfl, if_neg ‹_›⟩
  case bcd x =>
    unfold execBcd at h ⊢
    split at h <;> cases h <;> refine ⟨false, rfl, ?_⟩
    all_goals
      rename_i hc
      rw [State.withHostParts_base, hc]
      rfl
  case stRegs x =>
    unfold execStRegs at h ⊢
    split at h <;> cases h <;> refine ⟨false, rfl, ?_⟩
    all_goals
      rename_i hc
      rw [State.withHostParts_base, hc]
      rfl
  case ldRegs x =>
    unfold execLdRegs at h ⊢
    rw [State.withHostParts_base, State.loadRegs_withHostParts]
    split at h <;> cases h
    · exact ⟨false, rfl, rfl⟩
    · obtain ⟨w, hw⟩ := s.loadRegs_eq s.base (regCount x)
      rw [hw]
      exact ⟨false, rfl, rfl⟩
  case drw x y n =>
    unfold execDrw at h ⊢
    rw [State.withHostParts_base, State.withHostParts_sprite]
    split at h
    · cases h
      exact ⟨false, rfl, rfl⟩
    · split at h <;> cases h
      · exact ⟨false, rfl, rfl⟩
      · exact ⟨true, rfl, rfl⟩
  case ldVxK x =>
    unfold execLdVxK at h ⊢
    rw [State.withHostParts_keyAnswers]
    split at h <;> cases h <;> exact ⟨false, rfl, rfl⟩
  case rnd x nn =>
    cases h
    unfold execRnd
    rw [State.drawRandom_withHostParts]
    obtain ⟨l, n, hd⟩ := s.drawRandom_state
    exact ⟨false, by rw [hd]; rfl, rfl⟩
  all_goals
    cases h
    exact ⟨false, rfl, rfl⟩

/-- The end of a cycle leaves KEYS and DIRTY as the instruction left them. -/
theorem conclude_keys_dirty (i : Instr) (s t : State) :
    (conclude i s t).1.keys = t.keys ∧ (conclude i s t).1.dirty = t.dirty := by
  rcases conclude_cases i s t with ⟨-, hc⟩ | ⟨-, -, hc⟩ | ⟨-, -, hc⟩ <;> rw [hc] <;> exact ⟨rfl, rfl⟩

/-- How a cycle ends, and what it emits, depends on neither KEYS nor DIRTY. -/
theorem conclude_withHostParts (i : Instr) (s t : State) (keys : BitVec 16) (d e : Bool) :
    conclude i (s.withHostParts keys d) (t.withHostParts keys e) =
      ((conclude i s t).1.withHostParts keys e, (conclude i s t).2) := by
  have ha : awaitsKey i (s.withHostParts keys d) = awaitsKey i s := by cases i <;> rfl
  unfold conclude
  rw [ha, State.withHostParts_fault]
  split
  · rfl
  · split <;> rfl

/-- No cycle writes KEYS (R31). -/
theorem step_keys (h : step s = .next t) : t.keys = s.keys := by
  rcases step_cases h with ⟨-, rfl⟩ | ⟨-, -, rfl⟩ | ⟨op, r, -, -, -, rfl⟩ | ⟨op, i, u, -, -, -, he, rfl⟩
  · rfl
  · rfl
  · rfl
  · exact (conclude_keys_dirty i s u).1.trans (exec_writesOnlyOwnParts he).keys

/-- A cycle does the same, and emits the same, whatever DIRTY is, and, unless its word is EX9E or EXA1, whatever KEYS is. -/
theorem step_withHostParts (h : step s = .next t) (keys : BitVec 16) (d : Bool)
    (hk : ∀ x, s.fetch = some (encode (.skp x)) ∨ s.fetch = some (encode (.sknp x)) → keys = s.keys) :
    ∃ drew : Bool, t.dirty = (drew || s.dirty) ∧
      step (s.withHostParts keys d) = .next (t.withHostParts keys (drew || d)) ∧
      observations (s.withHostParts keys d) = observations s := by
  have hfault : (s.withHostParts keys d).fault.valid = s.fault.valid := rfl
  have hfetch : (s.withHostParts keys d).fetch = s.fetch := rfl
  rcases step_cases h with ⟨hv, rfl⟩ | ⟨hv, hf, rfl⟩ | ⟨op, r, hv, hf, hd, rfl⟩ | ⟨op, i, u, hv, hf, hd, he, rfl⟩
  · refine ⟨false, rfl, step_of_halted (hfault.trans hv), ?_⟩
    rw [observations_of_halted (hfault.trans hv), observations_of_halted hv]
  · refine ⟨false, rfl, step_of_no_fetch (hfault.trans hv) (hfetch.trans hf), ?_⟩
    rw [observations_of_no_fetch (hfault.trans hv) (hfetch.trans hf), observations_of_no_fetch hv hf]
    rfl
  · refine ⟨false, rfl, step_of_unknown (hfault.trans hv) (hfetch.trans hf) hd, ?_⟩
    rw [observations_of_unknown (hfault.trans hv) (hfetch.trans hf) hd, observations_of_unknown hv hf hd]
    rfl
  · have hword : encode i = op := encode_of_decode hd
    obtain ⟨drew, hdirty, hexec⟩ := exec_withHostParts he keys d (by
      rintro x (rfl | rfl)
      · exact hk x (.inl (hword ▸ hf))
      · exact hk x (.inr (hword ▸ hf)))
    have hconclude := conclude_withHostParts i s u keys d (drew || d)
    refine ⟨drew, (conclude_keys_dirty i s u).2.trans hdirty, ?_, ?_⟩
    · rw [step_of_instr (hfault.trans hv) (hfetch.trans hf) hd hexec, hconclude]
    · rw [observations_of_instr (hfault.trans hv) (hfetch.trans hf) hd hexec, hconclude, observations_of_instr hv hf hd he]

end

/-- Settles O45: the cycle after a key write is `step_withHostParts` with DIRTY as it is. -/
theorem keysMatterOnlyToTheKeySkips : Obligations.KeysMatterOnlyToTheKeySkips := by
  unfold Obligations.KeysMatterOnlyToTheKeySkips
  intro s t keys h hword
  obtain ⟨drew, hdirty, hstep, hobs⟩ := step_withHostParts h keys s.dirty
    (fun x hx => absurd hx (not_or.2 (hword x)))
  rw [State.writeKeys_eq, State.writeKeys_eq, hdirty]
  exact ⟨hstep, hobs⟩

/-- Settles O46: the cycle after a dirty clear is `step_withHostParts` with KEYS as it is. -/
theorem dirtyIsNeverReadNorCleared : Obligations.DirtyIsNeverReadNorCleared := by
  unfold Obligations.DirtyIsNeverReadNorCleared
  intro s t h
  obtain ⟨drew, hdirty, hstep, hobs⟩ := step_withHostParts h s.keys false (fun _ _ => rfl)
  rw [State.clearDirty_eq s]
  refine ⟨fun hs => by rw [hdirty, hs, Bool.or_true], hobs, _, hstep, ?_⟩
  rw [← step_keys h]
  rfl

/-! ### Reset, load and the transactions of the host (R33 to R41, R205) -/

/-- Settles O48: `State.resetWith_byte` for memory, and `State.load_byte` for the image. -/
theorem resetLeavesTheStateOfTheTable : Obligations.ResetLeavesTheStateOfTheTable := by
  unfold Obligations.ResetLeavesTheStateOfTheTable
  intro p keys
  refine ⟨⟨fun a => ?_, fun a hlow hhigh => ?_, fun r => ?_, rfl, rfl, fun k => ?_, rfl, rfl, rfl,
    fun q _ => Framebuffer.pixel_clear q, rfl, rfl, rfl⟩, fun image hlen => ?_⟩
  · rw [State.resetWith_byte p keys (by omega)]
    exact dif_pos a.isLt
  · rw [State.resetWith_byte p keys hhigh]
    exact dif_neg (by omega)
  · simp [State.getV, State.resetWith, State.reset]
  · simp [State.resetWith, State.reset]
  · have hload : boot p keys image = some ((State.resetWith p keys).store 512 image) := if_pos hlen
    have hbyte := State.load_byte (State.resetWith_mem_wf p keys) hload
    refine ⟨_, hload, rfl, fun k hk => ?_, fun a _ hout => ?_⟩
    · rw [hbyte, if_pos (by omega), Nat.add_sub_cancel_left]
    · rw [hbyte, if_neg (by omega)]

/-- Settles O49: on a running core each transaction is its one write, framed by the rule of that write. -/
theorem hostTransactionsTouchOnlyTheirPart : Obligations.HostTransactionsTouchOnlyTheirPart := by
  unfold Obligations.HostTransactionsTouchOnlyTheirPart
  refine ⟨fun s x h => Transaction.apply_of_halted h, fun s keys k b hr => ?_⟩
  have hnot : ¬ s.fault.valid = true := by simp [hr]
  refine ⟨?_, ?_, ?_, ?_⟩
  · exact ⟨s.writeKeys keys, if_neg hnot, rfl, .writeKeys .refl (by rfl) keys⟩
  · exact ⟨s.clearDirty, if_neg hnot, rfl, .clearDirty .refl (by rfl)⟩
  · exact ⟨s.answerKey k, if_neg hnot, rfl, .setKeyAnswers .refl (by rfl) _⟩
  · exact ⟨s.supplyRandom b, if_neg hnot, rfl, .setRandom .refl (by rfl) _ _⟩

/-! ### FX0A and CXNN (R163, R174) -/

/-- Settles O39: with an answer, FX0A is the answer taken, V[X] written and pc advanced; with none it is nothing. -/
theorem keyWaitTakesTheAnswer : Obligations.KeyWaitTakesTheAnswer := by
  unfold Obligations.KeyWaitTakesTheAnswer
  intro x s
  refine ⟨encXNN_eq_append 0xF x 0x0A, fun k rest hk => ?_, fun hk => ?_⟩
  · refine ⟨({ s with keyAnswers := rest }.setV x (BitVec.ofNat 8 k.val)).advance, ?_, rfl, ?_, ?_, rfl⟩
    · simp only [exec, execLdVxK, hk]
    · exact ((unchangedBut.refl.setKeyAnswers (.inr (.inr rfl)) rest).setV (.inr (.inl rfl)) _).advance (.inl rfl)
    · rw [State.advance_getV, State.getV_setV_same, BitVec.toNat_ofNat]
      omega
  · simp only [exec, execLdVxK, hk]

section
variable {s : State}

/-- CXNN completes with the byte that was drawn, masked, in V[X], and with the state after the draw otherwise. -/
theorem rnd_completesBy (x : Reg) (nn : Byte) {b : Byte} {l : List Byte} {n : Nat}
    (hd : s.drawRandom = (b, { s with rndSupply := l, rndDraws := n })) :
    completesBy (.rnd x nn) s (fun part => part = .reg x ∨ part = .random)
      (fun t => t.getV x = b &&& nn ∧ t.rndSupply = l ∧ t.rndDraws = n) := by
  refine ⟨({ s with rndSupply := l, rndDraws := n }.setV x (b &&& nn)).advance, ?_, rfl, ?_, ?_, rfl, rfl⟩
  · simp only [exec, execRnd, hd]
  · exact ((unchangedBut.refl.setRandom (.inr (.inr rfl)) l n).setV (.inr (.inl rfl)) _).advance (.inl rfl)
  · rw [State.advance_getV, State.getV_setV_same]

theorem State.drawRandom_of_cons {b : Byte} {rest : List Byte} (h : s.rndSupply = b :: rest) :
    s.drawRandom = (b, { s with rndSupply := rest, rndDraws := s.rndDraws }) := by
  simp only [State.drawRandom, h]

theorem State.drawRandom_of_nil (h : s.rndSupply = []) :
    s.drawRandom = (Config.freeRandomByte s.rndDraws, { s with rndSupply := [], rndDraws := s.rndDraws + 1 }) := by
  rw [← h]
  simp only [State.drawRandom, h]

/-- CXNN leaves in V[X] some byte AND NN. -/
theorem rnd_getV {t : State} {x : Reg} {nn : Byte} (h : exec (.rnd x nn) s = .next t) :
    t.getV x = s.drawRandom.1 &&& nn := by
  cases h
  rw [State.advance_getV, State.getV_setV_same]

end

/-- A masked byte has no bit outside the mask. -/
theorem and_and_not_self (b nn : Byte) : b &&& nn &&& ~~~nn = 0 := by
  rw [BitVec.and_assoc, BitVec.and_not_self]
  exact BitVec.and_zero

/-- A byte with no bit outside the mask is what the mask keeps of it. -/
theorem and_eq_self_of_and_not {b nn : Byte} (h : b &&& ~~~nn = 0) : b &&& nn = b :=
  calc b &&& nn = b &&& nn ||| b &&& ~~~nn := by rw [h]; exact BitVec.or_zero.symm
    _ = b &&& (nn ||| ~~~nn) := BitVec.and_or_distrib_left.symm
    _ = b := by rw [BitVec.or_not_self, BitVec.and_allOnes]

/-- Settles O43: the byte of a draw is the one laid ready or the free one, and a subset of NN's bits is reached by itself. -/
theorem randomByteIsMasked : Obligations.RandomByteIsMasked := by
  unfold Obligations.RandomByteIsMasked
  intro x nn s
  refine ⟨encXNN_eq_append 0xC x nn, fun b rest h => rnd_completesBy x nn (State.drawRandom_of_cons h),
    fun h => rnd_completesBy x nn (State.drawRandom_of_nil h), fun t h => ?_, fun sub hsub => ?_⟩
  · rw [rnd_getV h]
    exact and_and_not_self _ nn
  · refine ⟨sub, _, rfl, ?_⟩
    rw [rnd_getV rfl]
    exact and_eq_self_of_and_not hsub

end Sys2Proof.Machine

/-! PROOFS of the family "memory": reading back what was stored, the canonical form of memory, and the glyph table, which no
store reaches. -/

namespace Sys2Proof.Machine

/-! ### The canonical form of memory (log 11) -/

/-- The entries of a canonical memory are what it reads as, where that is not what the address reads as unlisted. -/
theorem Memory.mem_iff_read {m : Memory} (hm : m.wf) {c : Host.Cell} :
    c ∈ m ↔ m.read c.1 = c.2 ∧ c.2 ≠ Memory.unlisted c.1 := by
  obtain ⟨hsorted, hlisted⟩ := hm
  constructor
  · exact fun hc => ⟨Memory.read_of_mem hsorted hc, (hlisted c hc).2⟩
  · rintro ⟨hread, hne⟩
    by_contra hc
    refine hne (hread.symm.trans (Memory.read_of_not_listed fun d hd hdc => hc ?_))
    have hdval : d.2 = c.2 := by rw [← Memory.read_of_mem hsorted hd, hdc, hread]
    exact Prod.ext hdc hdval ▸ hd

/-- Settles O33: the two have the same entries, by `Memory.mem_iff_read`, and each lists them by rising address. -/
theorem canonicalMemoriesAreEqualWhenTheyReadEqual : Obligations.CanonicalMemoriesAreEqualWhenTheyReadEqual := by
  unfold Obligations.CanonicalMemoriesAreEqualWhenTheyReadEqual
  intro m n hm hn h
  have hmem : ∀ c, c ∈ m ↔ c ∈ n := fun c => by rw [Memory.mem_iff_read hm, Memory.mem_iff_read hn, h]
  have hirrefl : Std.Irrefl (fun c d : Host.Cell => c.1 < d.1) := ⟨fun c => Nat.lt_irrefl c.1⟩
  have hantisymm : Std.Antisymm (fun c d : Host.Cell => c.1 < d.1) := ⟨fun _ _ hcd hdc => absurd hdc hcd.asymm⟩
  exact hm.1.eq_of_mem_iff hn.1 hmem

section
variable {s : State} {x : Reg}

/-! ### FX55 and FX65 where their checks pass (R145, R146) -/

/-- The registers that FX55 and FX65 move are V[0..X]. -/
theorem lt_regCount {k : Reg} : k.val < regCount x ↔ k ≤ x :=
  Nat.lt_succ_iff

/-- FX55 inside 80..4095 is the store of V[0..X] at I, and pc + 2. -/
theorem exec_stRegs (hlow : 80 ≤ s.base) (hhigh : s.base + x.val ≤ 4095) :
    exec (.stRegs x) s = .next (s.store s.base (s.regsUpTo x)).advance := by
  have hc : checkStores s.base (regCount x) = none := checkStores_eq_none.2 (.inr ⟨hlow, by unfold regCount; omega⟩)
  simp only [exec, execStRegs, hc]

/-- FX65 inside memory is the load of V[0..X] from I, and pc + 2. -/
theorem exec_ldRegs (h : s.base + x.val ≤ 4095) :
    exec (.ldRegs x) s = .next (s.loadRegs s.base (regCount x)).advance := by
  have hc : checkLoads s.base (regCount x) = none := checkLoads_eq_none.2 (.inr (by unfold regCount; omega))
  simp only [exec, execLdRegs, hc]

/-- After the store of V[0..X] the byte at I + k is V[k] (R58). -/
theorem State.store_regsUpTo_byte (hm : s.mem.wf) (h : s.base + x.val ≤ 4095) {k : Reg} (hk : k ≤ x) :
    (s.store s.base (s.regsUpTo x)).byte (s.base + k.val) = s.getV k := by
  have hkx : k.val ≤ x.val := hk
  have hlen := s.regsUpTo_length x
  rw [State.store_byte, Memory.read_store hm (by omega), if_pos (by omega), Nat.add_sub_cancel_left,
    s.regsUpTo_getD x k hkx]

end

/-- Settles O31: each byte that FX65 loads is the one that FX55 stored (`State.store_regsUpTo_byte`). -/
theorem loadReadsBackWhatStoreWrote : Obligations.LoadReadsBackWhatStoreWrote := by
  unfold Obligations.LoadReadsBackWhatStoreWrote
  intro x s t b hm hlow hhigh hst hI hbyte
  rw [exec_stRegs hlow hhigh] at hst
  cases hst
  have hbase : b.base = s.base := congrArg BitVec.toNat hI
  refine ⟨_, exec_ldRegs (hbase ▸ hhigh), fun k hk => ?_, fun k hk => ?_⟩
  all_goals rw [State.advance_getV, State.loadRegs_getV]
  · rw [if_pos (lt_regCount.2 hk), hbase, hbyte, State.advance_byte, State.store_regsUpTo_byte hm hhigh hk]
  · rw [if_neg (mt lt_regCount.1 (not_le_of_gt hk))]

/-- Settles O32: the two bytes at pc are the two that FX55 stored there, the high one first. -/
theorem fetchSeesStoredBytes : Obligations.FetchSeesStoredBytes := by
  unfold Obligations.FetchSeesStoredBytes
  intro x s t k l hm hlow hhigh hst hl hlk hpc
  have hlx : l.val ≤ x.val := hl
  have hkx : k ≤ x := Fin.le_def.2 (by omega)
  rw [exec_stRegs hlow hhigh] at hst
  cases hst
  refine fetch_eq_some.2 ⟨by omega, ?_⟩
  rw [hpc, Nat.add_assoc, ← hlk, State.advance_byte, State.advance_byte, State.store_regsUpTo_byte hm hhigh hkx,
    State.store_regsUpTo_byte hm hhigh hl]

section
variable {s t : State} {i : Instr} {a : Nat} {glyph : Fin 80 → Byte}

/-! ### Memory below 80: no instruction, transaction or load writes it (R55, R60) -/

/-- A store keeps the bytes below its first address. -/
theorem Memory.read_store_of_lt {m : Memory} (hm : m.wf) {b : Nat} {bs : List Byte} (h : b + bs.length ≤ 4096) (ha : a < b) :
    (m.store b bs).read a = m.read a := by
  rw [Memory.read_store hm h, if_neg (by omega)]

/-- Equal memory reads equal. -/
theorem State.byte_of_mem_eq (h : t.mem = s.mem) (a : Nat) : t.byte a = s.byte a :=
  congrArg (Memory.read · a) h

/-- No instruction changes a byte below 80: what it stores, it stores from I, and I is at least 80 (R55). -/
theorem exec_keeps_byte_of_lt (hm : s.mem.wf) (he : exec i s = .next t) (ha : a < 80) : t.byte a = s.byte a := by
  rcases exec_cases he with ⟨c, n, rfl⟩ | ⟨-, ⟨ht, -⟩ | ⟨bytes, hlow, hlen, ht, -⟩ | ⟨-, ht, -⟩ | ⟨-, ht, -⟩⟩
  · rfl
  · exact State.byte_of_mem_eq ht a
  · exact (State.byte_of_mem_eq (s := s.store s.base bytes) ht a).trans (Memory.read_store_of_lt hm hlen (by omega))
  · exact State.byte_of_mem_eq ht a
  · exact State.byte_of_mem_eq ht a

/-- The end of a cycle leaves memory as the instruction left it. -/
theorem conclude_mem (i : Instr) (s t : State) : (conclude i s t).1.mem = t.mem := by
  rcases conclude_cases i s t with ⟨-, hc⟩ | ⟨-, -, hc⟩ | ⟨-, -, hc⟩ <;> rw [hc]
  exact t.tick_mem

/-- No cycle changes a byte below 80. -/
theorem step_keeps_byte_of_lt (hm : s.mem.wf) (h : step s = .next t) (ha : a < 80) : t.byte a = s.byte a := by
  rcases step_cases h with ⟨-, rfl⟩ | ⟨-, -, rfl⟩ | ⟨op, r, -, -, -, rfl⟩ | ⟨op, i, u, -, -, -, he, rfl⟩
  · rfl
  · rfl
  · rfl
  · exact (State.byte_of_mem_eq (conclude_mem i s u) a).trans (exec_keeps_byte_of_lt hm he ha)

/-- No transaction of the host changes a byte below 80. -/
theorem transaction_keeps_byte_of_lt {y : Transaction} (hm : s.mem.wf) (h : y.apply s = .next t) (ha : a < 80) :
    t.byte a = s.byte a := by
  rcases Transaction.apply_cases h with hs | ⟨-, rfl⟩ | ⟨-, ⟨keys, rfl⟩ | rfl | ⟨k, rfl⟩ | ⟨b, rfl⟩⟩
  · exact step_keeps_byte_of_lt hm hs ha
  all_goals rfl

/-- The table stays where every byte below 80 stays. -/
theorem glyphIntact.of_byte_eq (h : glyphIntact glyph s) (heq : ∀ a < 80, t.byte a = s.byte a) : glyphIntact glyph t :=
  fun a => (heq a.val a.isLt).trans (h a)

/-- A load keeps the table: the image begins at 512 (R205). -/
theorem load_keeps_glyphIntact {image : List Byte} (hm : s.mem.wf) (h : glyphIntact glyph s) (hl : s.load image = some t) :
    glyphIntact glyph t :=
  h.of_byte_eq fun a _ => by rw [State.load_byte hm hl, if_neg (by omega)]

/-- After reset the table is GLYPH (R41). -/
theorem State.resetWith_glyphIntact (p : Params) (keys : BitVec 16) : glyphIntact p.glyph (State.resetWith p keys) := by
  intro a
  rw [State.resetWith_byte p keys (by omega)]
  exact dif_pos a.isLt

/-- A reset in the middle of a run writes GLYPH again (R201). -/
theorem State.hostReset_glyphIntact (s : State) (p : Params) (keys : BitVec 16) : glyphIntact p.glyph (s.hostReset p keys) :=
  (State.resetWith_glyphIntact p keys).of_byte_eq fun _ _ => rfl

/-- In every state that a run can reach the table is GLYPH. -/
theorem Reachable.glyphIntact {p : Params} (h : Reachable p s) : glyphIntact p.glyph s := by
  induction h with
  | boot hb => exact load_keeps_glyphIntact (State.resetWith_mem_wf p _) (State.resetWith_glyphIntact p _) hb
  | transact hs y hy ih => exact ih.of_byte_eq fun _ => transaction_keeps_byte_of_lt hs.inv.memCanonical hy
  | reboot _ hl _ => exact load_keeps_glyphIntact (State.hostReset_inv _ p _).memCanonical (State.hostReset_glyphIntact _ p _) hl

/-! ### GlyphWrite (R55, R181) -/

/-- An instruction that raises a fault changes the record only. -/
theorem takesFault_of_raise {c : Cause} {n : Nat} (h : exec i s = .next (s.raise c (encode i) n)) :
    takesFault i s c.code n :=
  ⟨_, h, s.raise_fault c (encode i) n, .raise .refl (by rfl) c (encode i) n⟩

/-- A store of one byte to 16 from below 80 fails its first check, with that address. -/
theorem checkStores_of_lt {n : Nat} (hpos : 0 < n) (hle : n ≤ 16) (ha : a < 80) :
    checkStores a n = some (.glyphWrite, a) :=
  (checkStores_eq_some hle).2 ⟨hpos, .inl ⟨rfl, ha, rfl⟩⟩

theorem bcd_takesFault_glyphWrite (x : Reg) (h : s.base < 80) : takesFault (.bcd x) s 3 s.base :=
  takesFault_of_raise (c := .glyphWrite) (by
    simp only [exec, execBcd, checkStores_of_lt (show 0 < 3 by decide) (by decide) h])

theorem stRegs_takesFault_glyphWrite (x : Reg) (h : s.base < 80) : takesFault (.stRegs x) s 3 s.base :=
  takesFault_of_raise (c := .glyphWrite) (by
    simp only [exec, execStRegs, checkStores_of_lt x.val.succ_pos x.isLt h, regCount])

end

/-- Settles O53: the table holds in reachable states by induction on how they are reached, and a step keeps every byte below
80; a store that starts there fails its first check. -/
theorem glyphTableIsNeverOverwritten : Obligations.GlyphTableIsNeverOverwritten := by
  unfold Obligations.GlyphTableIsNeverOverwritten
  refine ⟨fun p s h => h.glyphIntact, fun glyph s t hi hg hs => ?_, fun s x h => ?_⟩
  · exact hg.of_byte_eq fun _ => step_keeps_byte_of_lt hi.memCanonical hs
  · exact ⟨bcd_takesFault_glyphWrite x h, stRegs_takesFault_glyphWrite x h⟩

end Sys2Proof.Machine

/-! PROOFS of the family "encoding": decoding and encoding undo each other, the rows of the opcode table exclude each other, the
words that no row hits, and what the assembler accepts. -/

namespace Sys2Proof

variable {op p : Word}

/-! ### Decoding an encoding (R72 to R75) -/

/-- The word of every instruction hits a row of the table, and that row builds the instruction back from it. -/
theorem encode_hits_ownRow (i : Instr) : Laws.EncodesOwnRow.Statement i := by
  cases i with
  | cls => exact Laws.EncodesOwnRow.cls
  | ret => exact Laws.EncodesOwnRow.ret
  | jp nnn => exact Laws.EncodesOwnRow.jp nnn
  | call nnn => exact Laws.EncodesOwnRow.call nnn
  | seImm x nn => exact Laws.EncodesOwnRow.seImm x nn
  | sneImm x nn => exact Laws.EncodesOwnRow.sneImm x nn
  | seReg x y => exact Laws.EncodesOwnRow.seReg x y
  | ldImm x nn => exact Laws.EncodesOwnRow.ldImm x nn
  | addImm x nn => exact Laws.EncodesOwnRow.addImm x nn
  | ldReg x y => exact Laws.EncodesOwnRow.ldReg x y
  | orReg x y => exact Laws.EncodesOwnRow.orReg x y
  | andReg x y => exact Laws.EncodesOwnRow.andReg x y
  | xorReg x y => exact Laws.EncodesOwnRow.xorReg x y
  | addReg x y => exact Laws.EncodesOwnRow.addReg x y
  | sub x y => exact Laws.EncodesOwnRow.sub x y
  | shr x y => exact Laws.EncodesOwnRow.shr x y
  | subn x y => exact Laws.EncodesOwnRow.subn x y
  | shl x y => exact Laws.EncodesOwnRow.shl x y
  | sneReg x y => exact Laws.EncodesOwnRow.sneReg x y
  | ldI nnn => exact Laws.EncodesOwnRow.ldI nnn
  | jpV0 nnn => exact Laws.EncodesOwnRow.jpV0 nnn
  | rnd x nn => exact Laws.EncodesOwnRow.rnd x nn
  | drw x y n => exact Laws.EncodesOwnRow.drw x y n
  | skp x => exact Laws.EncodesOwnRow.skp x
  | sknp x => exact Laws.EncodesOwnRow.sknp x
  | ldVxDt x => exact Laws.EncodesOwnRow.ldVxDt x
  | ldVxK x => exact Laws.EncodesOwnRow.ldVxK x
  | ldDtVx x => exact Laws.EncodesOwnRow.ldDtVx x
  | ldStVx x => exact Laws.EncodesOwnRow.ldStVx x
  | addI x => exact Laws.EncodesOwnRow.addI x
  | ldF x => exact Laws.EncodesOwnRow.ldF x
  | bcd x => exact Laws.EncodesOwnRow.bcd x
  | stRegs x => exact Laws.EncodesOwnRow.stRegs x
  | ldRegs x => exact Laws.EncodesOwnRow.ldRegs x

/-- The word of an instruction decodes to it: no other row can hit the word first (R76). -/
theorem decode_encode (i : Instr) : decode (encode i) = .ok i := by
  obtain ⟨r, hr, hhits, hbuild⟩ := encode_hits_ownRow i
  rw [decode_of_hits hr hhits, hbuild]

/-- A stream that begins with the bytes of a word decodes as the word does, and leaves the rest. -/
theorem decodeBytes_wordBytes_append (op : Word) (rest : List Byte) :
    decodeBytes (wordBytes op ++ rest) = (fun i => (i, rest)) <$> decode op := by
  simp only [wordBytes, List.cons_append, List.nil_append, decodeBytes]
  rw [BitVec.extractLsb'_append_extractLsb']

/-- Settles O1: `decode_encode`, and its lift to the two bytes of the word. -/
theorem decodeOfEncodeGivesTheInstruction : Obligations.DecodeOfEncodeGivesTheInstruction := by
  unfold Obligations.DecodeOfEncodeGivesTheInstruction
  refine ⟨decode_encode, fun i rest => ?_⟩
  rw [encodeBytes, decodeBytes_wordBytes_append, decode_encode]
  rfl

/-- Settles O2: `encode_of_decode`, by the row that the word hits. -/
theorem encodeOfDecodeGivesTheWord : Obligations.EncodeOfDecodeGivesTheWord := by
  unfold Obligations.EncodeOfDecodeGivesTheWord
  exact fun _ _ => encode_of_decode

/-! ### At most one row for each word (R76) -/

/-- No word hits both a row of the table and a later one. -/
theorem opcodeTable_not_hits_both_of_lt {j k : Fin 34} (hjk : j < k) (hj : opcodeTable[j].hits op = true) :
    ¬ opcodeTable[k].hits op = true :=
  Bool.eq_false_iff.1 (Row.not_hits_both (List.pairwise_iff_getElem.1 opcodeTable_pairwise_apart j k _ _ hjk) hj)

/-- Settles O3: of two different rows one comes first, and what it hits the other does not. -/
theorem noWordMatchesTwoRows : Obligations.NoWordMatchesTwoRows := by
  unfold Obligations.NoWordMatchesTwoRows
  intro op j k hj hk
  rcases lt_trichotomy j k with hjk | hjk | hjk
  · exact absurd hk (opcodeTable_not_hits_both_of_lt hjk hj)
  · exact hjk
  · exact absurd hj (opcodeTable_not_hits_both_of_lt hjk hk)

/-! ### The words that no row hits (R77, R79) -/

/-- The mask 0xF000 compares the family nibble. -/
theorem and_F000_eq_iff (hp : p &&& 0xF000#16 = p) : op &&& 0xF000#16 = p ↔ op.extractLsb' 12 4 = p.extractLsb' 12 4 := by
  refine ⟨fun h => field_of_mask h 12 4 (by decide), fun h => ?_⟩
  refine (?_ : op &&& 0xF000 = p &&& 0xF000).trans hp
  rw [← word_eq_fields op, ← word_eq_fields p, encXYN_and_top, encXYN_and_top, h]

/-- The mask 0xF00F compares the family nibble and the trailing nibble. -/
theorem and_F00F_eq_iff (hp : p &&& 0xF00F#16 = p) : op &&& 0xF00F#16 = p ↔
    op.extractLsb' 12 4 = p.extractLsb' 12 4 ∧ op.extractLsb' 0 4 = p.extractLsb' 0 4 := by
  refine ⟨fun h => ⟨field_of_mask h 12 4 (by decide), field_of_mask h 0 4 (by decide)⟩, fun ⟨hf, hn⟩ => ?_⟩
  refine (?_ : op &&& 0xF00F = p &&& 0xF00F).trans hp
  rw [← word_eq_fields op, ← word_eq_fields p, encXYN_and, encXYN_and, hf, hn]

/-- The mask 0xF0FF compares the family nibble and the trailing byte. -/
theorem and_F0FF_eq_iff (hp : p &&& 0xF0FF#16 = p) : op &&& 0xF0FF#16 = p ↔
    op.extractLsb' 12 4 = p.extractLsb' 12 4 ∧ op.extractLsb' 0 8 = p.extractLsb' 0 8 := by
  refine ⟨fun h => ⟨field_of_mask h 12 4 (by decide), field_of_mask h 0 8 (by decide)⟩, fun ⟨hf, hb⟩ => ?_⟩
  have hnn : fieldNN op = fieldNN p := hb
  refine (?_ : op &&& 0xF0FF = p &&& 0xF0FF).trans hp
  rw [← word_eq_XNN op, ← word_eq_XNN p, encXNN_and_X, encXNN_and_X, hf, hnn]

/-- Decode rejects exactly the words that no row hits. -/
theorem decode_eq_error_iff : decode op = .error (.unknownOpcode op) ↔ ∀ r ∈ opcodeTable, op &&& r.mask ≠ r.pat := by
  constructor
  · intro h r hr hhits
    rw [decode_of_hits hr (beq_iff_eq.2 hhits)] at h
    cases h
  · intro h
    have hnone : opcodeTable.find? (fun r => r.hits op) = none :=
      List.find?_eq_none.2 fun r hr hhits => h r hr (beq_iff_eq.1 hhits)
    unfold decode
    rw [hnone]

/-! The words that the rows of each part of the table miss: a row compares the family nibble and what follows the operands. -/

theorem rowsFlow_miss_iff : (∀ r ∈ rowsFlow, op &&& r.mask ≠ r.pat) ↔
    ¬ (op = 0x00E0 ∨ op = 0x00EE) ∧ op.extractLsb' 12 4 ∉ [0x1, 0x2] := by
  have hwhole : op &&& 0xFFFF#16 = op := BitVec.and_allOnes
  simp [rowsFlow, and_F000_eq_iff, hwhole, and_assoc]

theorem rowsSkipLoad_miss_iff : (∀ r ∈ rowsSkipLoad, op &&& r.mask ≠ r.pat) ↔
    op.extractLsb' 12 4 ∉ [0x3, 0x4] ∧ ¬ (op.extractLsb' 12 4 = 0x5 ∧ op.extractLsb' 0 4 = 0) ∧
    op.extractLsb' 12 4 ∉ [0x6, 0x7] := by
  simp [rowsSkipLoad, and_F000_eq_iff, and_F00F_eq_iff, and_assoc]

theorem rowsAlu_miss_iff : (∀ r ∈ rowsAlu, op &&& r.mask ≠ r.pat) ↔
    ¬ (op.extractLsb' 12 4 = 0x8 ∧ op.extractLsb' 0 4 ∈ [0x0, 0x1, 0x2, 0x3, 0x4, 0x5, 0x6, 0x7, 0xE]) := by
  simp [rowsAlu, and_F00F_eq_iff, imp_and]

theorem rowsMixed_miss_iff : (∀ r ∈ rowsMixed, op &&& r.mask ≠ r.pat) ↔
    ¬ (op.extractLsb' 12 4 = 0x9 ∧ op.extractLsb' 0 4 = 0) ∧ op.extractLsb' 12 4 ∉ [0xA, 0xB, 0xC, 0xD] ∧
    ¬ (op.extractLsb' 12 4 = 0xE ∧ op.extractLsb' 0 8 ∈ [0x9E, 0xA1]) := by
  simp [rowsMixed, and_F000_eq_iff, and_F00F_eq_iff, and_F0FF_eq_iff, imp_and, and_assoc]

theorem rowsF_miss_iff : (∀ r ∈ rowsF, op &&& r.mask ≠ r.pat) ↔
    ¬ (op.extractLsb' 12 4 = 0xF ∧ op.extractLsb' 0 8 ∈ [0x07, 0x0A, 0x15, 0x18, 0x1E, 0x29, 0x33, 0x55, 0x65]) := by
  simp [rowsF, and_F0FF_eq_iff, imp_and]

/-- The trailing nibbles of family 8 that are no row are the seven listed. -/
theorem aluGap_iff (n : BitVec 4) :
    n ∉ [0x0, 0x1, 0x2, 0x3, 0x4, 0x5, 0x6, 0x7, 0xE] ↔ n ∈ [0x8, 0x9, 0xA, 0xB, 0xC, 0xD, 0xF] := by
  revert n
  decide

/-- Family by family: ten families are one row each and have no gap, and in the other six a word is missed by all rows exactly
if its digits are none of the family's (`flow`, `reg`, `alu`, `key`, `misc`). -/
theorem missed_iff_in_gap (f : BitVec 4) {flow reg alu key misc : Prop} (hflow : flow → f = 0x0) :
    ((((¬ flow ∧ f ∉ [0x1, 0x2]) ∧ f ∉ [0x3, 0x4] ∧ ¬ (f = 0x5 ∧ reg) ∧ f ∉ [0x6, 0x7]) ∧ ¬ (f = 0x8 ∧ alu)) ∧
      ¬ (f = 0x9 ∧ reg) ∧ f ∉ [0xA, 0xB, 0xC, 0xD] ∧ ¬ (f = 0xE ∧ key)) ∧ ¬ (f = 0xF ∧ misc) ↔
    (f = 0x0 ∧ ¬ flow) ∨ (f = 0x5 ∧ ¬ reg) ∨ (f = 0x8 ∧ ¬ alu) ∨ (f = 0x9 ∧ ¬ reg) ∨ (f = 0xE ∧ ¬ key) ∨
      (f = 0xF ∧ ¬ misc) := by
  by_cases h0 : f = 0x0
  · simp [h0]
  · have hnf : ¬ flow := fun h => h0 (hflow h)
    obtain ⟨f⟩ := f
    fin_cases f <;> simp [hnf] at h0 ⊢

/-- Settles O4: the words that the five parts of the table miss, put together by `missed_iff_in_gap`. -/
theorem unknownWordsAreExactlyThoseListed : Obligations.UnknownWordsAreExactlyThoseListed := by
  unfold Obligations.UnknownWordsAreExactlyThoseListed
  intro op
  have hflow : op = 0x00E0 ∨ op = 0x00EE → op.extractLsb' 12 4 = 0x0 := by
    rintro (rfl | rfl) <;> rfl
  rw [decode_eq_error_iff, opcodeTable]
  simp only [List.forall_mem_append]
  rw [rowsFlow_miss_iff, rowsSkipLoad_miss_iff, rowsAlu_miss_iff, rowsMixed_miss_iff, rowsF_miss_iff,
    missed_iff_in_gap _ hflow, aluGap_iff, not_or]

/-- Settles O5: the words that decode are encodings, and the other two run through the table without a hit. -/
theorem wordsFromTheTableDecode : Obligations.WordsFromTheTableDecode := by
  unfold Obligations.WordsFromTheTableDecode
  exact ⟨decode_encode .cls, decode_encode .ret, decode_encode (.jp 0xABC), decode_encode (.seImm 10 0x7F),
    decode_encode (.seReg 10 11), decode_encode (.addReg 10 11), decode_encode (.shl 10 11), decode_encode (.drw 1 2 15),
    decode_encode (.sknp 15), decode_encode (.ldVxDt 0), decode_encode (.ldRegs 15), decode_encode (.rnd 5 0x0F),
    by decide, by decide⟩

end Sys2Proof

/-! ### What the assembler accepts (R81, R82) -/

namespace Sys2Proof.Machine

section
variable {α β : Type} {P Q : Prop} {e : Except AsmError α}

/-- What is built from one operand is accepted if the operand is. -/
theorem map_isOk (g : α → β) (he : e.isOk = true ↔ P) : (g <$> e).isOk = true ↔ P := by
  rw [← he]
  cases e <;> rfl

/-- An operand, and then others whose acceptance does not depend on it, are accepted if each is. -/
theorem bind_isOk {g : α → Except AsmError β} (he : e.isOk = true ↔ P) (hg : ∀ a, (g a).isOk = true ↔ Q) :
    (e >>= g).isOk = true ↔ P ∧ Q := by
  rw [← he]
  cases e with
  | ok a => exact (hg a).trans (and_iff_right rfl).symm
  | error _ => exact iff_of_false Bool.false_ne_true fun h => Bool.false_ne_true h.1

end

section
variable {labels : List (String × Nat)} {x y n : Nat} {k : Keyword} {operands : List Operand}

theorem wellFormed_iff_isOk {l : AsmLine} : l.wellFormed labels = true ↔ (l.toInstr labels).isOk = true := by
  unfold AsmLine.wellFormed
  cases l.toInstr labels <;> rfl

theorem asmReg_isOk : (asmReg x).isOk = true ↔ x < 16 := by
  unfold asmReg
  split <;> simp_all [Except.isOk, Except.toBool]

theorem asmNum_isOk {bits : Nat} : (asmNum bits n).isOk = true ↔ n < 2 ^ bits := by
  unfold asmNum
  split <;> simp_all [Except.isOk, Except.toBool]

theorem asmAddr_isOk {a : Operand} : (asmAddr labels a).isOk = true ↔ isAddress labels a := by
  cases a with
  | num n => exact asmNum_isOk
  | label name =>
    simp only [asmAddr, isAddress]
    cases labels.lookup name with
    | none => simp [Except.isOk, Except.toBool]
    | some a => simp [asmNum_isOk]
  | _ => exact iff_of_false Bool.false_ne_true id

theorem asmXNN_isOk {form : Reg → Byte → Instr} : (asmXNN form x n).isOk = true ↔ x < 16 ∧ n < 256 := by
  simp only [asmXNN, bind_pure_comp]
  exact bind_isOk asmReg_isOk fun _ => map_isOk _ asmNum_isOk

theorem asmXY_isOk {form : Reg → Reg → Instr} : (asmXY form x y).isOk = true ↔ x < 16 ∧ y < 16 := by
  simp only [asmXY, bind_pure_comp]
  exact bind_isOk asmReg_isOk fun _ => map_isOk _ asmReg_isOk

theorem asmXYN_isOk {form : Reg → Reg → Fin 16 → Instr} :
    (asmXYN form x y n).isOk = true ↔ x < 16 ∧ y < 16 ∧ n < 16 := by
  simp only [asmXYN, bind_pure_comp]
  exact bind_isOk asmReg_isOk fun _ => bind_isOk asmReg_isOk fun _ => map_isOk _ asmNum_isOk

/-- A form with the second register left out has Y = 0, which is in range. -/
theorem asmXY_zero_isOk {form : Reg → Reg → Instr} : (asmXY form x 0).isOk = true ↔ x < 16 :=
  asmXY_isOk.trans (and_iff_left (by decide))

/-- A line stands for an instruction exactly if it is a form of the column with its operands in range: the cases are the forms,
in the order of `AsmLine.toInstr`, taken together by the operands they have. -/
theorem toInstr_isOk : (AsmLine.toInstr labels ⟨k, operands⟩).isOk = true ↔ lineInRange labels k operands := by
  unfold AsmLine.toInstr
  dsimp only
  split
  case h_1 | h_2 => exact iff_of_true rfl trivial
  case h_3 | h_4 | h_5 | h_23 => exact map_isOk _ asmAddr_isOk
  case h_6 | h_7 | h_10 | h_11 | h_24 => exact asmXNN_isOk
  case h_18 | h_21 => exact asmXY_zero_isOk
  case h_8 | h_9 | h_12 | h_13 | h_14 | h_15 | h_16 | h_17 | h_19 | h_20 | h_22 => exact asmXY_isOk
  case h_25 => exact asmXYN_isOk
  case h_26 | h_27 | h_28 | h_29 | h_30 | h_31 | h_32 | h_33 | h_34 | h_35 | h_36 => exact map_isOk _ asmReg_isOk
  case h_37 =>
    -- Each form of `lineInRange` is one that the default case has excluded.
    refine iff_of_false Bool.false_ne_true fun h => ?_
    unfold lineInRange at h
    split at h <;> solve_by_elim

end

/-- Settles O6: a line is well formed if it stands for an instruction (`toInstr_isOk`). -/
theorem assemblerChecksOperandRanges : Obligations.AssemblerChecksOperandRanges := by
  unfold Obligations.AssemblerChecksOperandRanges
  exact fun _ _ _ => wellFormed_iff_isOk.trans toInstr_isOk

end Sys2Proof.Machine

/-! PROOFS of the family "cycle and dispatch": how a fetch and a decode can go, the three ends of a cycle as equations, the tick
and its edges, the pc rule, and the induction over runs that counts a timer down. -/

namespace Sys2Proof.Machine

section
variable {s t : State} {i : Instr} {op : Word} {r : DecodeReject} {o : Observation}

/-! ### Waiting: the FX0A wait is a decoded instruction that awaits a key (R97, R163) -/

/-- A word is rejected for one reason, that no row matches it. -/
theorem eq_unknownOpcode_of_decode (h : decode op = .error r) : r = .unknownOpcode op := by
  unfold decode at h
  split at h <;> cases h
  rfl

/-- A running core waits exactly if the instruction at pc awaits a key. -/
theorem waiting_iff_awaitsKey (hr : s.running) (hf : s.fetch = some op) (hd : decode op = .ok i) :
    s.waiting ↔ awaitsKey i s = true := by
  rw [awaitsKey_eq_true]
  constructor
  · rintro ⟨-, hk, x, hx⟩
    obtain rfl : op = encode (.ldVxK x) := Option.some.inj (hf.symm.trans hx)
    rw [decode_encode] at hd
    cases hd
    exact ⟨⟨x, rfl⟩, hk⟩
  · rintro ⟨⟨x, rfl⟩, hk⟩
    exact ⟨hr, hk, x, by rw [hf, encode_of_decode hd]⟩

theorem not_waiting_of_no_fetch (hf : s.fetch = none) : ¬ s.waiting := by
  rintro ⟨-, -, x, hx⟩
  rw [hf] at hx
  cases hx

theorem not_waiting_of_unknown (hf : s.fetch = some op) (hd : decode op = .error r) : ¬ s.waiting := by
  rintro ⟨-, -, x, hx⟩
  obtain rfl : op = encode (.ldVxK x) := Option.some.inj (hf.symm.trans hx)
  rw [decode_encode] at hd
  cases hd

/-- An instruction that awaits a key leaves the state as it is. -/
theorem exec_of_awaitsKey (h : awaitsKey i s = true) : exec i s = .next s := by
  obtain ⟨⟨x, rfl⟩, hk⟩ := awaitsKey_eq_true.1 h
  simp only [exec, execLdVxK, hk]

/-! ### The three ends of a cycle (R97) -/

theorem conclude_of_halted (ht : t.halted) : conclude i s t = (t, [t.faultSeen]) :=
  if_pos ht

theorem conclude_of_awaitsKey (ht : t.running) (ha : awaitsKey i s = true) : conclude i s t = (t, []) := by
  simp [conclude, ht, ha]

theorem conclude_of_completed (ht : t.running) (ha : awaitsKey i s = false) : conclude i s t = (t.tick, t.tickEdges) := by
  simp [conclude, ht, ha]

/-- A waiting cycle changes nothing and emits nothing. -/
theorem step_of_waiting (h : s.waiting) : step s = .next s ∧ observations s = [] := by
  obtain ⟨hr, hk, x, hf⟩ := h
  have ha : awaitsKey (.ldVxK x) s = true := awaitsKey_eq_true.2 ⟨⟨x, rfl⟩, hk⟩
  have hd : decode (encode (.ldVxK x)) = .ok (.ldVxK x) := decode_encode _
  have hc : conclude (.ldVxK x) s s = (s, []) := conclude_of_awaitsKey hr ha
  exact ⟨by rw [step_of_instr hr hf hd (exec_of_awaitsKey ha), hc],
    by rw [observations_of_instr hr hf hd (exec_of_awaitsKey ha), hc]⟩

/-- The cycle of an instruction that completes ends with the tick, and emits its edges. -/
theorem step_of_completed (hr : s.running) (hf : s.fetch = some op) (hd : decode op = .ok i) (he : exec i s = .next t)
    (ht : t.running) (ha : awaitsKey i s = false) : step s = .next t.tick ∧ observations s = t.tickEdges := by
  have hc : conclude i s t = (t.tick, t.tickEdges) := conclude_of_completed ht ha
  exact ⟨by rw [step_of_instr hr hf hd he, hc], by rw [observations_of_instr hr hf hd he, hc]⟩

/-- The cycle of an instruction that faults ends with the fault, and emits it. -/
theorem step_of_faulted (hr : s.running) (hf : s.fetch = some op) (hd : decode op = .ok i) (he : exec i s = .next t)
    (ht : t.halted) : step s = .next t ∧ observations s = [t.faultSeen] := by
  have hc : conclude i s t = (t, [t.faultSeen]) := conclude_of_halted ht
  exact ⟨by rw [step_of_instr hr hf hd he, hc], by rw [observations_of_instr hr hf hd he, hc]⟩

/-! ### The tick (R95) -/

/-- The tick emits the edge of each timer that is 1, and nothing else. -/
theorem mem_tickEdges : o ∈ s.tickEdges ↔ (o = .dtEdge ∧ s.dt = 1) ∨ (o = .stEdge ∧ s.st = 1) := by
  simp [State.tickEdges, and_comm]

theorem dtEdge_mem_tickEdges : .dtEdge ∈ s.tickEdges ↔ s.dt = 1 := by
  simp [mem_tickEdges]

theorem stEdge_mem_tickEdges : .stEdge ∈ s.tickEdges ↔ s.st = 1 := by
  simp [mem_tickEdges]

/-- What the cycle of a word that is no instruction emits (R96). -/
theorem mem_observations_of_unknown (hr : s.running) (hf : s.fetch = some op) (hd : decode op = .error r) :
    o ∈ observations s ↔ o = .unknownOpcode s.pc op ∨ (o = .dtEdge ∧ s.dt = 1) ∨ (o = .stEdge ∧ s.st = 1) := by
  rw [observations_of_unknown hr hf hd, List.mem_cons, mem_tickEdges, State.advance_dt, State.advance_st]

/-- The tick writes the two timers only. -/
theorem unchangedBut.tick {changed : Part → Prop} (h : unchangedBut changed s t) (hdt : changed .DT) (hst : changed .ST) :
    unchangedBut changed s t.tick := by
  intro part hp
  cases part
  case DT => exact absurd hdt hp
  case ST => exact absurd hst hp
  all_goals exact h _ hp

/-! ### The program counter (R93) -/

theorem raise_not_running {c : Cause} {n : Nat} : ¬ (s.raise c op n).running := by
  simp

/-- A skip goes 4 on where its condition holds, else 2. -/
theorem skipIf_pc_of_iff {c : Bool} {p : Prop} [Decidable p] (h : c = true ↔ p) :
    (s.skipIf c).pc = if p then s.pc + 4 else s.pc + 2 := by
  rw [State.skipIf_pc, ← if_congr h rfl rfl]
  exact apply_ite (s.pc + ·) _ _ _

theorem State.loadRegs_pc (s : State) (a n : Nat) : (s.loadRegs a n).pc = s.pc := by
  obtain ⟨w, hw⟩ := s.loadRegs_eq a n
  rw [hw]

theorem State.drawRandom_pc (s : State) : s.drawRandom.2.pc = s.pc := by
  obtain ⟨l, n, hd⟩ := s.drawRandom_state
  rw [hd]

end

/-! ### The statements about one cycle settled -/

/-- Settles O7: the end of the cycle (`conclude`) for each of its three kinds. -/
theorem stepRunsTheDecodedInstruction : Obligations.StepRunsTheDecodedInstruction := by
  unfold Obligations.StepRunsTheDecodedInstruction
  intro s t i hr hpc hd he
  have hf := fetch_eq_some.2 ⟨hpc, rfl⟩
  refine ⟨fun ht => (step_of_faulted hr hf hd he ht).1, fun ht ha => ?_, fun ht ha => (step_of_completed hr hf hd he ht ha).1⟩
  rw [step_of_instr hr hf hd he, conclude_of_awaitsKey ht ha]

/-- Settles O8: `fetch_eq_some` below 4095 and the fetch fault above. -/
theorem fetchReadsTwoBytesOrFaults : Obligations.FetchReadsTwoBytesOrFaults := by
  unfold Obligations.FetchReadsTwoBytesOrFaults
  refine fun s => ⟨fun hpc => ?_, fun hpc => ?_⟩
  · exact ⟨_, fetch_eq_some.2 ⟨hpc, rfl⟩, BitVec.extractLsb'_append_eq_left, BitVec.extractLsb'_append_eq_right⟩
  · have hf := fetch_eq_none.2 hpc
    exact ⟨hf, fun hr => ⟨_, step_of_no_fetch hr hf, rfl, .raise .refl (by rfl) _ _ _⟩⟩

/-- Settles O9: the cycle is `advance` and the tick. -/
theorem unknownWordOnlyAdvances : Obligations.UnknownWordOnlyAdvances := by
  unfold Obligations.UnknownWordOnlyAdvances
  intro s op hr hf hd
  refine ⟨_, step_of_unknown hr hf hd, rfl, countDown_toNat _, countDown_toNat _, ?_,
    fun o => mem_observations_of_unknown hr hf hd⟩
  exact (unchangedBut.refl.advance (.inl rfl)).tick (.inr (.inl rfl)) (.inr (.inr rfl))

/-- Settles O10: the three ends of an instruction's cycle, the cycle of UNKNOWN and the fetch fault, each by its equation. -/
theorem tickFollowsEveryCompletedInstruction : Obligations.TickFollowsEveryCompletedInstruction := by
  unfold Obligations.TickFollowsEveryCompletedInstruction
  refine ⟨fun s t op i hr hf hd he => ⟨step_of_faulted hr hf hd he, fun _ => step_of_waiting, fun ht hw => ?_⟩,
    fun s op r hr hf hd => ?_, fun s hr hf => ?_⟩
  · have ha : awaitsKey i s = false := Bool.eq_false_iff.2 (mt (waiting_iff_awaitsKey hr hf hd).2 hw)
    obtain ⟨hstep, hobs⟩ := step_of_completed hr hf hd he ht ha
    rw [hobs]
    exact ⟨_, hstep, countDown_toNat _, countDown_toNat _, .tick .refl (.inl rfl) (.inr rfl), dtEdge_mem_tickEdges,
      stEdge_mem_tickEdges⟩
  · refine ⟨_, step_of_unknown hr hf hd, countDown_toNat _, countDown_toNat _, ?_, ?_⟩
    all_goals simp [mem_observations_of_unknown hr hf hd]
  · exact ⟨_, step_of_no_fetch hr hf, rfl, rfl, rfl, observations_of_no_fetch hr hf⟩

/-- Settles O11: the fetch fails, the word is UNKNOWN, or its instruction waits, faults (`exec_of_halted`) or completes. -/
theorem cycleEndsInOneOfThreeWays : Obligations.CycleEndsInOneOfThreeWays := by
  unfold Obligations.CycleEndsInOneOfThreeWays
  intro s hr
  cases hf : s.fetch with
  | none =>
    exact ⟨_, step_of_no_fetch hr hf,
      .inr (.inl ⟨not_waiting_of_no_fetch hf, rfl, .raise .refl (by rfl) _ _ _, step_of_halted rfl⟩)⟩
  | some op =>
    cases hd : decode op with
    | error r =>
      obtain rfl := eq_unknownOpcode_of_decode hd
      exact ⟨_, step_of_unknown hr hf hd,
        .inr (.inr ⟨not_waiting_of_unknown hf hd, rfl, op, s.advance, rfl, rfl, .inr ⟨hd, rfl⟩⟩)⟩
    | ok i =>
      obtain ⟨u, he⟩ := exec_next i s
      by_cases hw : s.waiting
      · exact ⟨s, (step_of_waiting hw).1, .inl ⟨hw, rfl⟩⟩
      · cases hu : u.fault.valid with
        | true =>
          obtain ⟨c, n, -, rfl⟩ := exec_of_halted hr he hu
          exact ⟨_, (step_of_faulted hr hf hd he hu).1,
            .inr (.inl ⟨hw, hu, .raise .refl (by rfl) _ _ _, step_of_halted hu⟩)⟩
        | false =>
          have ha : awaitsKey i s = false := Bool.eq_false_iff.2 (mt (waiting_iff_awaitsKey hr hf hd).2 hw)
          have hfault : u.fault = s.fault := (exec_raises_or_keeps_fault he).resolve_left (by
            rintro ⟨c, n, -, rfl⟩
            exact raise_not_running hu)
          exact ⟨_, (step_of_completed hr hf hd he hu ha).1,
            .inr (.inr ⟨hw, hfault, op, u, rfl, rfl, .inl ⟨i, hd, he⟩⟩)⟩

/-- Settles O12: each meaning ends with its pc assignment, but on the paths that fault or wait, which are excluded. -/
theorem pcAdvancesByTwoUnlessSkipOrTransfer : Obligations.PcAdvancesByTwoUnlessSkipOrTransfer := by
  unfold Obligations.PcAdvancesByTwoUnlessSkipOrTransfer
  refine ⟨fun s op r hr hf hd => ⟨_, step_of_unknown hr hf hd, rfl⟩, fun i s t _ he ht hw => ?_⟩
  cases i
  all_goals simp only [exec] at he ⊢
  case ret =>
    unfold execRet at he
    split at he <;> cases he
    · exact absurd ht raise_not_running
    · exact ⟨‹_›, rfl⟩
  case call =>
    unfold execCall at he
    split at he <;> cases he
    · rfl
    · exact absurd ht raise_not_running
  case seImm | seReg => cases he; exact skipIf_pc_of_iff beq_iff_eq
  case sneImm | sneReg => cases he; exact skipIf_pc_of_iff bne_iff_ne
  case skp =>
    unfold execSkp at he
    split at he <;> cases he
    · exact absurd ht raise_not_running
    · exact skipIf_pc_of_iff Iff.rfl
  case sknp x =>
    unfold execSknp at he
    split at he <;> cases he
    · exact absurd ht raise_not_running
    · have hup : (!s.keyDown (s.keyIndex x)) = true ↔ ¬ s.keys.getLsbD (s.getV x).toNat = true := by
        simp [State.keyDown, State.keyIndex]
      rw [skipIf_pc_of_iff hup, ite_not]
  case drw =>
    unfold execDrw at he
    split at he
    · cases he
      exact absurd ht raise_not_running
    · split at he <;> cases he
      · exact absurd ht raise_not_running
      · rfl
  case bcd =>
    unfold execBcd at he
    split at he <;> cases he
    · exact absurd ht raise_not_running
    · rfl
  case stRegs =>
    unfold execStRegs at he
    split at he <;> cases he
    · exact absurd ht raise_not_running
    · rfl
  case ldRegs =>
    unfold execLdRegs at he
    split at he <;> cases he
    · exact absurd ht raise_not_running
    · rw [State.advance_pc, State.loadRegs_pc]
  case ldVxK =>
    unfold execLdVxK at he
    split at he <;> cases he
    · exact absurd (awaitsKey_eq_true.2 ⟨⟨_, rfl⟩, ‹_›⟩) hw
    · rfl
  case rnd =>
    cases he
    rw [State.advance_pc, State.setV_pc, State.drawRandom_pc]
  all_goals
    cases he
    rfl

/-! ### The key wait over many attempts (R163, R164) -/

/-- A state that a step leaves as it is stays so over any number of cycle requests. -/
theorem runs_of_step_self {s : State} (h : step s = .next s) (n : Nat) : runs n s s := by
  induction n with
  | zero => rfl
  | succ n ih => exact ⟨s, h, ih⟩

/-- Settles O40: a waiting step changes nothing; with an answer, FX0A completes as `keyWaitTakesTheAnswer` says. -/
theorem keyWaitLastsUntilAnswered : Obligations.KeyWaitLastsUntilAnswered := by
  unfold Obligations.KeyWaitLastsUntilAnswered
  intro s hw
  obtain ⟨hstep, hobs⟩ := step_of_waiting hw
  refine ⟨runs_of_step_self hstep, hobs, fun k => ?_⟩
  obtain ⟨hr, hk, x, hf⟩ := hw
  have hanswer : (s.answerKey k).keyAnswers = [k] := by simp [State.answerKey, hk]
  obtain ⟨t, he, hpc, hframe, hx, hrest⟩ := (keyWaitTakesTheAnswer x (s.answerKey k)).2.1 k [] hanswer
  have hfault : t.fault = s.fault := hframe .FAULT (by simp)
  have hdt : t.dt = s.dt := hframe .DT (by simp)
  have hst : t.st = s.st := hframe .ST (by simp)
  have ht : t.running := (congrArg FaultRecord.valid hfault).trans hr
  have ha : awaitsKey (.ldVxK x) (s.answerKey k) = false := by simp [awaitsKey, hanswer]
  have hcycle : step (s.answerKey k) = .next t.tick :=
    (step_of_completed (s := s.answerKey k) hr hf (decode_encode _) he ht ha).1
  refine ⟨t.tick, hcycle, hpc, ht, hrest, ?_, ?_, x, hf, hx⟩
  · rw [State.tick_dt, countDown_toNat, hdt]
  · rw [State.tick_st, countDown_toNat, hst]

/-! ### The timers over many cycles (R95, R209) -/

section
variable {s t : State} {n : Nat}

/-- A run that ends running began running: a halted core stays as it is. -/
theorem running_of_runs (h : runs n s t) (ht : t.running) : s.running := by
  induction n generalizing s with
  | zero => exact h ▸ ht
  | succ n ih =>
    obtain ⟨u, hs, hu⟩ := h
    refine Bool.eq_false_iff.2 fun hv => ?_
    rw [step_of_halted hv] at hs
    cases hs
    exact absurd hv (Bool.eq_false_iff.1 (ih hu))

/-- A cycle that neither faults nor waits is the tick after UNKNOWN or after the instruction whose word was fetched. -/
theorem eq_tick_of_step (hr : s.running) (hs : step s = .next t) (ht : t.running) (hw : ¬ s.waiting) :
    ∃ u, t = u.tick ∧ (u = s.advance ∨ ∃ i, s.fetch = some (encode i) ∧ exec i s = .next u) := by
  obtain ⟨t', hs', hend⟩ := cycleEndsInOneOfThreeWays s hr
  rw [hs] at hs'
  cases hs'
  rcases hend with ⟨hw', -⟩ | ⟨-, hv, -⟩ | ⟨-, -, op, u, hf, rfl, ⟨i, hd, he⟩ | ⟨-, rfl⟩⟩
  · exact absurd hw' hw
  · exact absurd hv (Bool.eq_false_iff.1 ht)
  · exact ⟨u, rfl, .inr ⟨i, hf.trans (by rw [encode_of_decode hd]), he⟩⟩
  · exact ⟨_, rfl, .inl rfl⟩

/-- A completed cycle that is no FX15 counts DT down once. -/
theorem step_dt (hr : s.running) (hs : step s = .next t) (ht : t.running) (hw : ¬ s.waiting)
    (hx : ∀ x, s.fetch ≠ some (encode (.ldDtVx x))) : t.dt.toNat = s.dt.toNat - 1 := by
  obtain ⟨u, rfl, rfl | ⟨i, hf, he⟩⟩ := eq_tick_of_step hr hs ht hw
  · exact countDown_toNat s.dt
  · have hdt : u.dt = s.dt := by
      by_contra hne
      obtain ⟨x, rfl⟩ := (exec_writesOnlyOwnParts he).dt hne
      exact hx x hf
    rw [State.tick_dt, countDown_toNat, hdt]

/-- A completed cycle that is no FX18 counts ST down once. -/
theorem step_st (hr : s.running) (hs : step s = .next t) (ht : t.running) (hw : ¬ s.waiting)
    (hx : ∀ x, s.fetch ≠ some (encode (.ldStVx x))) : t.st.toNat = s.st.toNat - 1 := by
  obtain ⟨u, rfl, rfl | ⟨i, hf, he⟩⟩ := eq_tick_of_step hr hs ht hw
  · exact countDown_toNat s.st
  · have hst : u.st = s.st := by
      by_contra hne
      obtain ⟨x, rfl⟩ := (exec_writesOnlyOwnParts he).st hne
      exact hx x hf
    rw [State.tick_st, countDown_toNat, hst]

/-- A number that each cycle of a run counts down, stopping at 0, has fallen by the number of cycles at its end. -/
theorem runs_countDown {timer : State → Nat} (h : runs n s t) (ht : t.running)
    (hcount : ∀ k < n, ∀ u v, runs k s u → u.running → step u = .next v → v.running → timer v = timer u - 1) :
    timer t = timer s - n := by
  induction n generalizing s with
  | zero => exact congrArg timer h
  | succ n ih =>
    have hr : s.running := running_of_runs h ht
    obtain ⟨w, hs, hw⟩ := h
    have hfirst : timer w = timer s - 1 := hcount 0 n.succ_pos s w rfl hr hs (running_of_runs hw ht)
    have hrest : timer t = timer w - n :=
      ih hw fun k hk u v hu => hcount (k + 1) (Nat.succ_lt_succ hk) u v ⟨w, hs, hu⟩
    omega

end

/-- Settles O42: each cycle counts the timer down (`step_dt`, `step_st`), and `runs_countDown` adds the cycles up. -/
theorem timersCountCompletedCycles : Obligations.TimersCountCompletedCycles := by
  unfold Obligations.TimersCountCompletedCycles
  intro n s t h ht hw
  refine ⟨fun hx => ?_, fun hx => ?_⟩
  · exact runs_countDown (timer := fun u => u.dt.toNat) h ht fun k hk u v hu hr hs hv =>
      step_dt hr hs hv (hw k hk u hu) (hx k hk u hu)
  · exact runs_countDown (timer := fun u => u.st.toNat) h ht fun k hk u v hu hr hs hv =>
      step_st hr hs hv (hw k hk u hu) (hx k hk u hu)

end Sys2Proof.Machine

/-! PROOFS of the family "flow": the frames of the operations on pc and the stack, the two stack transfers with their faults, and
the jumps. -/

namespace Sys2Proof.Machine

section
variable {s t : State} {changed : Part → Prop} {k : Fin 16} {w : Word} {nnn : Addr}

/-! ### The stack: the slot a push writes is the one a pop reads (R101, R103) -/

theorem State.push_slot (free : s.sp.val < 16) :
    (s.push w free).stack[k] = if s.sp.val = k.val then w else s.stack[k] :=
  Vector.getElem_set free k.isLt

/-- The top of the stack is slot SP - 1. -/
theorem State.top_eq_slot (h : s.sp.val = k.val + 1) : s.top = s.stack[k] := by
  simp [State.top, h]

/-- Where all slots in use hold addresses of at most 4096, so does the top of a stack that is not empty. -/
theorem returnsInRange.top_le (h : returnsInRange s) (hsp : s.sp.val ≠ 0) : s.top.toNat ≤ 4096 :=
  h ⟨s.sp.val - 1, by omega⟩ (Nat.sub_one_lt hsp)

/-! ### Frames of the jump, the pop and the push -/

theorem unchangedBut.jump (h : unchangedBut changed s t) (hpc : changed .pc) (w : Word) : unchangedBut changed s (t.jump w) := by
  intro part hp
  cases part
  case pc => exact absurd hpc hp
  all_goals exact h _ hp

theorem unchangedBut.drop (h : unchangedBut changed s t) (hsp : changed .SP) : unchangedBut changed s t.drop := by
  intro part hp
  cases part
  case SP => exact absurd hsp hp
  all_goals exact h _ hp

theorem unchangedBut.push (h : unchangedBut changed s t) (hsp : changed .SP) (hk : t.sp.val = k.val) (hslot : changed (.slot k))
    (w : Word) (free : t.sp.val < 16) : unchangedBut changed s (t.push w free) := by
  intro part hp
  cases part
  case SP => exact absurd hsp hp
  case slot j =>
    have hj : t.sp.val ≠ j.val := by
      intro hj
      obtain rfl : k = j := Fin.ext (hk.symm.trans hj)
      exact hp hslot
    exact (State.push_slot free).trans ((if_neg hj).trans (h _ hp))
  all_goals exact h _ hp

/-! ### The meanings of 00EE and 2NNN where they raise no fault, and the targets -/

theorem exec_ret (h : s.sp.val ≠ 0) : exec .ret s = .next (s.drop.jump s.top) := if_neg h

theorem exec_call (free : s.sp.val < 16) :
    exec (.call nnn) s = .next ((s.push s.returnAddress free).jump (target nnn)) := dif_pos free

theorem target_toNat : (target nnn).toNat = nnn.toNat := by
  simp [target, Nat.mod_eq_of_lt (show nnn.toNat < 65536 by omega)]

/-- V[0] + NNN is at most 255 + 4095, so that the sum does not wrap (R104). -/
theorem State.targetV0_toNat : (s.targetV0 nnn).toNat = (s.getV 0).toNat + nnn.toNat := by
  unfold State.targetV0
  bv_omega

end

/-! ### The statements about control transfer settled -/

/-- Settles O16: RET is the pop and the jump to the top (`exec_ret`), and StackUnderflow on an empty stack. -/
theorem retPopsTheReturnAddress : Obligations.RetPopsTheReturnAddress := by
  unfold Obligations.RetPopsTheReturnAddress
  refine ⟨rfl, fun s => ⟨fun hsp => ?_, fun hsp => takesFault_of_raise (c := .stackUnderflow) (if_pos hsp)⟩⟩
  exact ⟨_, exec_ret hsp, rfl, rfl, (unchangedBut.refl.drop (.inr rfl)).jump (.inl rfl) _, fun h => h.top_le hsp⟩

/-- Settles O18: CALL is the push to slot SP and the jump (`exec_call`), and StackOverflow where no slot is free. -/
theorem callPushesTheReturnAddress : Obligations.CallPushesTheReturnAddress := by
  unfold Obligations.CallPushesTheReturnAddress
  refine fun nnn s => ⟨rfl, fun k hk => ?_, fun hsp => ?_⟩
  · have free : s.sp.val < 16 := hk ▸ k.isLt
    exact ⟨_, exec_call free, (State.push_slot free).trans (if_pos hk), rfl, target_toNat,
      (unchangedBut.refl.push (.inr (.inl rfl)) hk (.inr (.inr rfl)) _ free).jump (.inl rfl) _⟩
  · exact takesFault_of_raise (c := .stackOverflow) (dif_neg (by omega))

/-- Settles O19: the slot that the call pushed is the top of the stack before the return, and the push left those below it. -/
theorem callAndReturnRoundTrip : Obligations.CallAndReturnRoundTrip := by
  unfold Obligations.CallAndReturnRoundTrip
  intro nnn s free
  refine ⟨_, exec_call free, fun b hsp hslots => ?_⟩
  have hb : b.sp.val = s.sp.val + 1 := congrArg Fin.val hsp
  refine ⟨_, exec_ret (by omega), ?_, ?_, fun k hk => ?_⟩
  · calc b.top = b.stack[(⟨s.sp.val, free⟩ : Fin 16)] := State.top_eq_slot hb
      _ = (s.push s.returnAddress free).stack[(⟨s.sp.val, free⟩ : Fin 16)] := hslots _ (Nat.lt_succ_self _)
      _ = s.pc + 2 := (State.push_slot free).trans (if_pos rfl)
  · exact Fin.ext (by simp [hb])
  · calc b.stack[k] = (s.push s.returnAddress free).stack[k] := hslots k (Nat.lt_succ_of_lt hk)
      _ = s.stack[k] := (State.push_slot free).trans (if_neg hk.ne')

/-- Settles O17: both are one `jump`, to a target whose number `target_toNat` and `State.targetV0_toNat` give. -/
theorem jumpsSetPcAndNothingElse : Obligations.JumpsSetPcAndNothingElse := by
  unfold Obligations.JumpsSetPcAndNothingElse
  exact fun nnn s => ⟨⟨rfl, _, rfl, target_toNat, unchangedBut.refl.jump (by rfl) _⟩,
    rfl, _, rfl, State.targetV0_toNat, unchangedBut.refl.jump (by rfl) _⟩

end Sys2Proof.Machine

/-! PROOFS of the family "skip": the frame of a skip, what an instruction that ends in one does, and the four register skips. -/

namespace Sys2Proof

/-- Format XYN with the register numbers written as numerals. -/
theorem encXYN_eq_append (f : BitVec 4) (x y : Reg) (n : BitVec 4) :
    encXYN f x y n = f ++ BitVec.ofNat 4 x.val ++ BitVec.ofNat 4 y.val ++ n := by
  unfold encXYN
  rw [BitVec.ofNat_finVal (w := 4) x, BitVec.ofNat_finVal (w := 4) y]

end Sys2Proof

namespace Sys2Proof.Machine

section
variable {s t : State} {i : Instr} {c : Bool} {p : Prop} [Decidable p]

/-- A skip writes pc only. -/
theorem unchangedBut.skipIf {changed : Part → Prop} (h : unchangedBut changed s t) (hpc : changed .pc) (c : Bool) :
    unchangedBut changed s (t.skipIf c) := by
  intro part hp
  cases part
  case pc => exact absurd hpc hp
  all_goals exact h _ hp

/-- An instruction whose meaning is a skip on a condition that decides `p` goes 4 on where `p` holds, else 2 (R93). -/
theorem completes_of_skipIf (he : exec i s = .next (s.skipIf c)) (hc : c = true ↔ p) :
    ∃ t, exec i s = .next t ∧ t.pc = s.pc + (if p then 4 else 2) ∧ unchangedBut (fun part => part = .pc) s t :=
  ⟨_, he, by rw [State.skipIf_pc, if_congr hc rfl rfl], unchangedBut.refl.skipIf (by rfl) c⟩

/-- The same, of an instruction that skips where `p` fails. -/
theorem completes_of_skipIf_not (he : exec i s = .next (s.skipIf c)) (hc : c = true ↔ ¬ p) :
    ∃ t, exec i s = .next t ∧ t.pc = s.pc + (if p then 2 else 4) ∧ unchangedBut (fun part => part = .pc) s t := by
  simpa only [ite_not] using completes_of_skipIf he hc

end

/-! ### The statement about the register skips settled (R111 to R114) -/

/-- Settles O20: each meaning is one `skipIf`, on the equality of two whole bytes or on its negation. -/
theorem registerSkipsAdvanceFourOrTwo : Obligations.RegisterSkipsAdvanceFourOrTwo := by
  unfold Obligations.RegisterSkipsAdvanceFourOrTwo
  refine fun x y nn s => ⟨⟨encXNN_eq_append _ x nn, ?_⟩, ⟨encXNN_eq_append _ x nn, ?_⟩, ⟨encXYN_eq_append _ x y _, ?_⟩,
    ⟨encXYN_eq_append _ x y _, ?_⟩⟩
  · exact completes_of_skipIf (i := .seImm x nn) rfl beq_iff_eq
  · exact completes_of_skipIf_not (i := .sneImm x nn) rfl bne_iff_ne
  · exact completes_of_skipIf (i := .seReg x y) rfl beq_iff_eq
  · exact completes_of_skipIf_not (i := .sneReg x y) rfl bne_iff_ne

end Sys2Proof.Machine

/-! PROOFS of the family "load and arithmetic": an instruction that writes one register, one that writes the flag and then a
result computed from the registers as they then are, the values of the flags, and the eleven instructions. -/

namespace Sys2Proof.Machine

section
variable {s : State} {i : Instr} {x y : Reg} {post : State → Prop} {flag op : Byte → Byte → Byte}

/-! ### One register written, without a flag (R120) -/

/-- An instruction whose meaning is one register write and `pc + 2` changes that register only. -/
theorem completesBy_of_setV {b : Byte} (he : exec i s = .next (s.setV x b).advance) (hpost : ∀ t, t.getV x = b → post t) :
    completesBy i s (fun part => part = .reg x) post :=
  ⟨_, he, rfl, (unchangedBut.refl.setV (.inr rfl) b).advance (.inl rfl), hpost _ (s.getV_setV_same x b)⟩

/-! ### The flag first, then the result from the registers as they then are (R9, R120) -/

/-- VF <- flag of V[X] and V[Y]; then V[X] <- op of V[X] and V[Y], read again; then pc + 2: the shape that the
meanings of the five instructions that write a flag have by definition. -/
def State.flagThenResult (s : State) (x y : Reg) (flag op : Byte → Byte → Byte) : State :=
  let t := s.setV vf (flag (s.getV x) (s.getV y))
  (t.setV x (op (t.getV x) (t.getV y))).advance

theorem unchangedBut_flagThenResult :
    unchangedBut (fun part => part = .pc ∨ part = .reg x ∨ part = .reg vf) s (s.flagThenResult x y flag op) :=
  ((unchangedBut.refl.setV (.inr (.inr rfl)) _).setV (.inr (.inl rfl)) _).advance (.inl rfl)

/-- Where X is not 15 the flag stays in VF. -/
theorem State.flagThenResult_getV_vf (hx : x ≠ 15) :
    (s.flagThenResult x y flag op).getV vf = flag (s.getV x) (s.getV y) :=
  (State.getV_setV_ne _ hx.symm _).trans (s.getV_setV_same vf _)

/-- The result sees the new flag in place of each operand that is VF. -/
theorem State.flagThenResult_getV_dest :
    (s.flagThenResult x y flag op).getV x =
      op (if x = 15 then flag (s.getV x) (s.getV y) else s.getV x)
        (if y = 15 then flag (s.getV x) (s.getV y) else s.getV y) := by
  unfold State.flagThenResult
  rw [State.advance_getV, State.getV_setV_same, State.getV_setV, State.getV_setV]

/-- The corner-case table that R127, R128 and R130 share, in bytes: X and Y each 15 or not. -/
structure AliasTable (s t : State) (x y : Reg) (flag op : Byte → Byte → Byte) : Prop where
  flag_of_ne : x ≠ 15 → y ≠ 15 → t.getV vf = flag (s.getV x) (s.getV y)
  result_of_ne : x ≠ 15 → y ≠ 15 → t.getV x = op (s.getV x) (s.getV y)
  flag_of_right : x ≠ 15 → y = 15 → t.getV vf = flag (s.getV x) (s.getV vf)
  result_of_right : x ≠ 15 → y = 15 → t.getV x = op (s.getV x) (flag (s.getV x) (s.getV vf))
  result_of_left : x = 15 → y ≠ 15 → t.getV vf = op (flag (s.getV vf) (s.getV y)) (s.getV y)
  result_of_both : x = 15 → y = 15 → t.getV vf = op (flag (s.getV vf) (s.getV vf)) (flag (s.getV vf) (s.getV vf))

theorem aliasTable_flagThenResult : AliasTable s (s.flagThenResult x y flag op) x y flag op where
  flag_of_ne hx _ := State.flagThenResult_getV_vf hx
  result_of_ne hx hy := by rw [State.flagThenResult_getV_dest, if_neg hx, if_neg hy]
  flag_of_right hx hy := by rw [State.flagThenResult_getV_vf hx, hy]
  result_of_right hx hy := by rw [State.flagThenResult_getV_dest, if_neg hx, if_pos hy, hy]
  result_of_left hx hy := by
    subst hx
    rw [State.flagThenResult_getV_dest, if_pos rfl, if_neg hy]
  result_of_both hx hy := by
    subst hx hy
    rw [State.flagThenResult_getV_dest, if_pos rfl]

/-- An instruction whose meaning is a flag and then a result changes V[X] and VF only, and leaves them as the table says. -/
theorem completesBy_of_flagThenResult (he : exec i s = .next (s.flagThenResult x y flag op))
    (hpost : ∀ t, AliasTable s t x y flag op → post t) :
    completesBy i s (fun part => part = .reg x ∨ part = .reg vf) post :=
  ⟨_, he, rfl, unchangedBut_flagThenResult, hpost _ aliasTable_flagThenResult⟩

end

section
variable {a b : Byte}

/-! ### The flags and the wrapping operations as numbers (R132) -/

theorem flagByte_toNat (c : Bool) : (flagByte c).toNat = c.toNat := by
  cases c <;> rfl

theorem flagByte_decide_toNat {p : Prop} [Decidable p] : (flagByte (decide p)).toNat = if p then 1 else 0 := by
  by_cases hp : p <;> simp [hp]

theorem carryFlag_toNat : (carryFlag a b).toNat = if a.toNat + b.toNat > 255 then 1 else 0 := flagByte_decide_toNat

theorem greaterFlag_toNat : (greaterFlag a b).toNat = if a.toNat > b.toNat then 1 else 0 := flagByte_decide_toNat

theorem lessFlag_toNat : (lessFlag a b).toNat = if a.toNat < b.toNat then 1 else 0 := flagByte_decide_toNat

theorem lowBitFlag_toNat : (lowBitFlag a).toNat = a.toNat % 2 := by
  rw [lowBitFlag, flagByte_toNat, BitVec.getLsbD, Nat.toNat_testBit, Nat.pow_zero, Nat.div_one]

theorem highBitFlag_toNat : (highBitFlag a).toNat = a.toNat / 128 := by
  rw [highBitFlag, flagByte_toNat, BitVec.getLsbD, Nat.toNat_testBit]
  omega

/-- A difference of bytes wraps below 0. -/
theorem byte_sub_toNat : (a - b).toNat = (256 + a.toNat - b.toNat) % 256 := by
  bv_omega

theorem shiftRight_one_toNat : (a >>> 1).toNat = a.toNat / 2 := by
  rw [BitVec.toNat_ushiftRight, Nat.shiftRight_eq_div_pow, Nat.pow_one]

theorem shiftLeft_one_toNat : (a <<< 1).toNat = 2 * a.toNat % 256 := by
  rw [BitVec.toNat_shiftLeft, Nat.shiftLeft_eq, Nat.pow_one, Nat.mul_comm]

end

/-! ### The statements about load and arithmetic settled -/

/-- Settles O22: each meaning is one register write, of a value that is bitwise. -/
theorem logicIsBitwise : Obligations.LogicIsBitwise := by
  unfold Obligations.LogicIsBitwise
  refine fun x y s => ⟨⟨encXYN_eq_append _ x y _, ?_⟩, ⟨encXYN_eq_append _ x y _, ?_⟩, ⟨encXYN_eq_append _ x y _, ?_⟩⟩
  · exact completesBy_of_setV (i := .orReg x y) rfl fun t ht b => by rw [ht, BitVec.getLsbD_or]
  · exact completesBy_of_setV (i := .andReg x y) rfl fun t ht b => by rw [ht, BitVec.getLsbD_and]
  · exact completesBy_of_setV (i := .xorReg x y) rfl fun t ht b => by rw [ht, BitVec.getLsbD_xor]

/-- Settles O23: the corner-case table with the carry and the sum; with X = Y = 15 the sum is twice the carry. -/
theorem addWithCarryAndItsAliasCases : Obligations.AddWithCarryAndItsAliasCases := by
  unfold Obligations.AddWithCarryAndItsAliasCases
  refine fun x y s => ⟨encXYN_eq_append _ x y _, ?_⟩
  refine completesBy_of_flagThenResult (i := .addReg x y) (flag := carryFlag) (op := (· + ·)) rfl fun t h => ?_
  refine ⟨fun hx hy => ⟨?_, ?_⟩, fun hx hy => ⟨?_, ?_⟩, fun hx hy => ?_, fun hx hy => ?_⟩
  · rw [h.flag_of_ne hx hy, carryFlag_toNat]
  · rw [h.result_of_ne hx hy, BitVec.toNat_add]
  · rw [h.flag_of_right hx hy, carryFlag_toNat]
  · rw [h.result_of_right hx hy, BitVec.toNat_add, carryFlag_toNat]
  · rw [h.result_of_left hx hy, BitVec.toNat_add, carryFlag_toNat]
  · rw [h.result_of_both hx hy, BitVec.toNat_add, carryFlag_toNat]
    split <;> split <;> omega

/-- Settles O24: the corner-case table with strict "greater" and the difference; with X = Y = 15 the flag is taken from itself. -/
theorem subtractAndItsAliasCases : Obligations.SubtractAndItsAliasCases := by
  unfold Obligations.SubtractAndItsAliasCases
  refine fun x y s => ⟨encXYN_eq_append _ x y _, ?_⟩
  refine completesBy_of_flagThenResult (i := .sub x y) (flag := greaterFlag) (op := (· - ·)) rfl fun t h => ?_
  refine ⟨fun hx hy => ⟨?_, ?_⟩, fun hx hy => ⟨?_, ?_⟩, fun hx hy => ?_, fun hx hy => ?_⟩
  · rw [h.flag_of_ne hx hy, greaterFlag_toNat]
  · rw [h.result_of_ne hx hy, byte_sub_toNat]
  · rw [h.flag_of_right hx hy, greaterFlag_toNat]
  · rw [h.result_of_right hx hy, byte_sub_toNat, greaterFlag_toNat]
  · rw [h.result_of_left hx hy, byte_sub_toNat, greaterFlag_toNat]
  · rw [h.result_of_both hx hy, BitVec.sub_self, BitVec.toNat_zero]

/-- Settles O25: the corner-case table with strict "less" and the difference the other way round. -/
theorem reverseSubtractAndItsAliasCases : Obligations.ReverseSubtractAndItsAliasCases := by
  unfold Obligations.ReverseSubtractAndItsAliasCases
  refine fun x y s => ⟨encXYN_eq_append _ x y _, ?_⟩
  refine completesBy_of_flagThenResult (i := .subn x y) (flag := lessFlag) (op := fun a b => b - a) rfl fun t h => ?_
  refine ⟨fun hx hy => ⟨?_, ?_⟩, fun hx hy => ⟨?_, ?_⟩, fun hx hy => ?_, fun hx hy => ?_⟩
  · rw [h.flag_of_ne hx hy, lessFlag_toNat]
  · rw [h.result_of_ne hx hy, byte_sub_toNat]
  · rw [h.flag_of_right hx hy, lessFlag_toNat]
  · rw [h.result_of_right hx hy, byte_sub_toNat, lessFlag_toNat]
  · rw [h.result_of_left hx hy, byte_sub_toNat, lessFlag_toNat]
  · rw [h.result_of_both hx hy, BitVec.sub_self, BitVec.toNat_zero]

/-- Settles O26: a shift is a flag and then a result with X for both operands, as Y is not read; X = 15 shifts the flag. -/
theorem shiftsByOneAndTheirAliasCases : Obligations.ShiftsByOneAndTheirAliasCases := by
  unfold Obligations.ShiftsByOneAndTheirAliasCases
  refine fun x y s => ⟨⟨encXYN_eq_append _ x y _, ?_⟩, ⟨encXYN_eq_append _ x y _, ?_⟩⟩
  · refine completesBy_of_flagThenResult (i := .shr x y) (y := x) (flag := fun a _ => lowBitFlag a) (op := fun a _ => a >>> 1)
      rfl fun t h => ⟨fun hx => ⟨?_, ?_⟩, fun hx => ?_⟩
    · rw [h.flag_of_ne hx hx, lowBitFlag_toNat]
    · rw [h.result_of_ne hx hx, shiftRight_one_toNat]
    · rw [h.result_of_both hx hx]
      apply BitVec.eq_of_toNat_eq
      rw [shiftRight_one_toNat, lowBitFlag_toNat]
      exact Nat.div_eq_of_lt (Nat.mod_lt _ two_pos)
  · refine completesBy_of_flagThenResult (i := .shl x y) (y := x) (flag := fun a _ => highBitFlag a) (op := fun a _ => a <<< 1)
      rfl fun t h => ⟨fun hx => ⟨?_, ?_⟩, fun hx => ?_⟩
    · rw [h.flag_of_ne hx hx, highBitFlag_toNat]
    · rw [h.result_of_ne hx hx, shiftLeft_one_toNat]
    · rw [h.result_of_both hx hx, shiftLeft_one_toNat, highBitFlag_toNat]
      split <;> omega

/-- Settles O21: each meaning is one register write. -/
theorem loadsAndImmediateAdd : Obligations.LoadsAndImmediateAdd := by
  unfold Obligations.LoadsAndImmediateAdd
  refine fun x y nn s => ⟨⟨encXNN_eq_append _ x nn, ?_⟩, ⟨encXNN_eq_append _ x nn, ?_⟩, ⟨encXYN_eq_append _ x y _, ?_⟩⟩
  · exact completesBy_of_setV (i := .ldImm x nn) rfl fun _ ht => ht
  · exact completesBy_of_setV (i := .addImm x nn) rfl fun t ht => by rw [ht, BitVec.toNat_add]
  · exact completesBy_of_setV (i := .ldReg x y) rfl fun _ ht => ht

end Sys2Proof.Machine

/-! PROOFS of the family "index and memory": the frames of a write to I, of a store and of a register load, what FX33, FX55 and
FX65 do where their checks pass and where they fail, and the six instructions. -/

namespace Sys2Proof.Machine

section
variable {s t : State} {i : Instr} {changed : Part → Prop} {post : State → Prop} {x : Reg} {a n : Nat} {bs : List Byte} {b : Byte}

/-! ### Frames of the write to I, the store and the register load -/

theorem unchangedBut.setI (h : unchangedBut changed s t) (hI : changed .I) (w : Word) : unchangedBut changed s (t.setI w) := by
  intro part hp
  cases part
  case I => exact absurd hI hp
  all_goals exact h _ hp

/-- A store inside memory changes the bytes at its own addresses only (R58). -/
theorem unchangedBut.store (h : unchangedBut changed s t) (hm : t.mem.wf) (hlen : a + bs.length ≤ 4096)
    (hbytes : ∀ k < bs.length, changed (.byte (a + k))) : unchangedBut changed s (t.store a bs) := by
  intro part hp
  cases part
  case byte p =>
    have hout : ¬ (a ≤ p ∧ p < a + bs.length) := fun ⟨hle, hlt⟩ => by
      obtain ⟨k, rfl⟩ := Nat.exists_eq_add_of_le hle
      exact hp (hbytes k (by omega))
    exact (Memory.read_store hm hlen p).trans ((if_neg hout).trans (h _ hp))
  all_goals exact h _ hp

/-- A load of `n` registers changes those registers only (R146). -/
theorem unchangedBut.loadRegs (h : unchangedBut changed s t) (hregs : ∀ r : Reg, r.val < n → changed (.reg r)) :
    unchangedBut changed s (t.loadRegs a n) := by
  intro part hp
  have hreg := t.loadRegs_getV a n
  obtain ⟨w, hw⟩ := t.loadRegs_eq a n
  rw [hw] at hreg ⊢
  cases part
  case reg r => exact (hreg r).trans ((if_neg fun hr => hp (hregs r hr)).trans (h _ hp))
  all_goals exact h _ hp

/-! ### The writers of I (R141 to R143) -/

/-- An instruction whose meaning is a write to I and `pc + 2` changes I only. -/
theorem completesBy_of_setI {w : Word} (he : exec i s = .next (s.setI w).advance) (hpost : ∀ t, t.I = w → post t) :
    completesBy i s (fun part => part = .I) post :=
  ⟨_, he, rfl, (unchangedBut.refl.setI (.inr rfl) w).advance (.inl rfl), hpost _ rfl⟩

theorem zext16_byte_toNat : (zext16 b).toNat = b.toNat :=
  BitVec.toNat_setWidth_of_le (by decide)

theorem indexOverflowFlag_toNat {w : Word} : (indexOverflowFlag b w).toNat = if b.toNat + w.toNat > 65535 then 1 else 0 :=
  flagByte_decide_toNat

/-! ### The stores and the load where their checks pass (R144 to R146) -/

/-- An instruction whose meaning is a store from I inside memory and `pc + 2` changes the bytes at its own addresses only. -/
theorem completesBy_of_store (he : exec i s = .next (s.store s.base bs).advance) (hm : s.mem.wf)
    (hlen : s.base + bs.length ≤ 4096) (hbytes : ∀ k < bs.length, changed (.byte (s.base + k)))
    (hpost : ∀ t, (∀ k < bs.length, t.byte (s.base + k) = bs.getD k 0) → post t) : completesBy i s changed post := by
  refine ⟨_, he, rfl, (unchangedBut.refl.store hm hlen fun k hk => .inr (hbytes k hk)).advance (.inl rfl), hpost _ fun k hk => ?_⟩
  rw [State.advance_byte, State.store_byte, Memory.read_store hm hlen, if_pos (by omega), Nat.add_sub_cancel_left]

/-- FX33 inside 80..4095 is the store of the three digits at I, and pc + 2. -/
theorem exec_bcd (hlow : 80 ≤ s.base) (hhigh : s.base ≤ 4093) :
    exec (.bcd x) s = .next (s.store s.base (bcdDigits (s.getV x))).advance := by
  have hc : checkStores s.base 3 = none := checkStores_eq_none.2 (.inr ⟨hlow, by omega⟩)
  simp only [exec, execBcd, hc]

/-- The digits of `bcdDigits` are decimal digits, and their value is the byte. -/
theorem bcdDigits_value : 100 * (b / 100).toNat + 10 * (b / 10 % 10).toNat + (b % 10).toNat = b.toNat ∧
    (b / 100).toNat ≤ 2 ∧ (b / 10 % 10).toNat ≤ 9 ∧ (b % 10).toNat ≤ 9 := by
  have hb : b.toNat < 256 := b.isLt
  have hhundreds : (b / 100).toNat = b.toNat / 100 := BitVec.toNat_udiv
  have htens : (b / 10 % 10).toNat = b.toNat / 10 % 10 := by rw [BitVec.toNat_umod, BitVec.toNat_udiv]; rfl
  have hones : (b % 10).toNat = b.toNat % 10 := BitVec.toNat_umod
  omega

/-! ### The checks that fail: DataOutOfRange (R54, R55) -/

/-- A store of one byte to 16 that ends above 4095 fails at its first address above 4095. -/
theorem checkStores_of_gt (hpos : 0 < n) (hle : n ≤ 16) (h : 4096 < a + n) :
    checkStores a n = some (.dataOutOfRange, max a 4096) :=
  (checkStores_eq_some hle).2 ⟨hpos, .inr ⟨rfl, h, rfl⟩⟩

theorem bcd_takesFault_dataOutOfRange (x : Reg) (h : 4093 < s.base) : takesFault (.bcd x) s 2 (max s.base 4096) :=
  takesFault_of_raise (c := .dataOutOfRange) (by
    simp only [exec, execBcd, checkStores_of_gt (show 0 < 3 by decide) (by decide) (show 4096 < s.base + 3 by omega)])

theorem stRegs_takesFault_dataOutOfRange (h : 4095 < s.base + x.val) : takesFault (.stRegs x) s 2 (max s.base 4096) :=
  takesFault_of_raise (c := .dataOutOfRange) (by
    simp only [exec, execStRegs, regCount, checkStores_of_gt x.val.succ_pos x.isLt (Nat.succ_lt_succ h)])

theorem ldRegs_takesFault_dataOutOfRange (h : 4095 < s.base + x.val) : takesFault (.ldRegs x) s 2 (max s.base 4096) := by
  have hc : checkLoads s.base (regCount x) = some (max s.base 4096) :=
    checkLoads_eq_some.2 ⟨x.val.succ_pos, Nat.succ_lt_succ h, rfl⟩
  exact takesFault_of_raise (c := .dataOutOfRange) (by simp only [exec, execLdRegs, hc])

end

/-! ### The statements about the address register and memory settled -/

/-- Settles O27: each meaning is one write to I; FX1E writes VF before it, and reads the new VF where X = 15. -/
theorem writersOfTheAddressRegister : Obligations.WritersOfTheAddressRegister := by
  unfold Obligations.WritersOfTheAddressRegister
  refine fun x nnn s => ⟨⟨rfl, ?_⟩, ⟨encXNN_eq_append _ x _, ?_⟩, ⟨encXNN_eq_append _ x _, ?_⟩⟩
  · exact completesBy_of_setI (i := .ldI nnn) rfl fun t ht => by rw [ht, target_toNat]
  · have hflag := s.getV_setV_same vf (indexOverflowFlag (s.getV x) s.I)
    refine ⟨_, rfl, rfl, ((unchangedBut.refl.setV (.inr (.inr rfl)) _).setI (.inr (.inl rfl)) _).advance (.inl rfl), ?_, ?_⟩
    · rw [State.advance_getV, State.setI_getV, hflag, indexOverflowFlag_toNat]
    · rw [State.advance_I, State.setI_I, State.setV_I, BitVec.toNat_add, zext16_byte_toNat, State.advance_getV, State.setI_getV]
      split
      case isTrue hx => rw [hx]
      case isFalse hx => rw [State.getV_setV_ne _ hx]
  · exact completesBy_of_setI (i := .ldF x) rfl fun t ht => by rw [ht, zext16_byte_toNat, State.romAddress]

/-- Settles O28: the store of `bcdDigits`, whose value `bcdDigits_value` gives; the first check that fails names the fault. -/
theorem bcdStoresThreeDigitsOrFaults : Obligations.BcdStoresThreeDigitsOrFaults := by
  unfold Obligations.BcdStoresThreeDigitsOrFaults
  refine fun x s hm => ⟨encXNN_eq_append _ x _, fun hlow hhigh => ?_, bcd_takesFault_dataOutOfRange x,
    bcd_takesFault_glyphWrite x⟩
  have hlen : s.base + (bcdDigits (s.getV x)).length ≤ 4096 := Nat.add_le_add_right hhigh 3
  refine completesBy_of_store (exec_bcd hlow hhigh) hm hlen (fun k hk => ⟨k, hk, rfl⟩) fun t ht => ?_
  have hhundreds : t.byte s.base = s.getV x / 100 := ht 0 (show 0 < 3 by decide)
  have htens : t.byte (s.base + 1) = s.getV x / 10 % 10 := ht 1 (show 1 < 3 by decide)
  have hones : t.byte (s.base + 2) = s.getV x % 10 := ht 2 (show 2 < 3 by decide)
  rw [hhundreds, htens, hones]
  exact bcdDigits_value

/-- Settles O29: the store of V[0..X], or the fault of the first check that fails. -/
theorem storeRegistersOrFaults : Obligations.StoreRegistersOrFaults := by
  unfold Obligations.StoreRegistersOrFaults
  refine fun x s hm => ⟨encXNN_eq_append _ x _, fun hlow hhigh => ?_, stRegs_takesFault_dataOutOfRange,
    stRegs_takesFault_glyphWrite x⟩
  have hlen := s.regsUpTo_length x
  refine completesBy_of_store (exec_stRegs hlow hhigh) hm (by omega) (fun k hk => ⟨k, by omega, rfl⟩) fun t ht k hk => ?_
  have hkx : k.val ≤ x.val := hk
  rw [ht k.val (by omega), s.regsUpTo_getD x k hkx]

/-- Settles O30: the load of V[0..X] (`State.loadRegs_getV`), or the fault of the first check that fails. -/
theorem loadRegistersOrFaults : Obligations.LoadRegistersOrFaults := by
  unfold Obligations.LoadRegistersOrFaults
  refine fun x s => ⟨encXNN_eq_append _ x _, fun h => ?_, ldRegs_takesFault_dataOutOfRange⟩
  refine ⟨_, exec_ldRegs h, congrArg (· + 2) (s.loadRegs_pc _ _), ?_, fun k hk => ?_⟩
  · exact (unchangedBut.refl.loadRegs fun r hr => .inr ⟨r, lt_regCount.1 hr, rfl⟩).advance (.inl rfl)
  · rw [State.advance_getV, State.loadRegs_getV, if_pos (lt_regCount.2 hk)]

end Sys2Proof.Machine

/-! PROOFS of the family "display": the frames of a write to FB and to DIRTY, when the checks of DXYN pass, the state it
then leaves, and the two instructions. -/

namespace Sys2Proof

theorem flagByte_eq_one_iff {b : Bool} : flagByte b = 1 ↔ b = true := by cases b <;> decide

theorem flagByte_eq_zero_iff {b : Bool} : flagByte b = 0 ↔ b = false := by cases b <;> decide

/-- The word of DXYN with its three numbers written as numerals (R74). -/
theorem encode_drw {x y : Reg} {n : Fin 16} :
    encode (.drw x y n) = 0xD#4 ++ BitVec.ofNat 4 x.val ++ BitVec.ofNat 4 y.val ++ BitVec.ofNat 4 n.val := by
  rw [BitVec.ofNat_finVal (w := 4) n]
  exact encXYN_eq_append 0xD x y _

end Sys2Proof

namespace Sys2Proof.Machine

section
variable {s t : State} {changed : Part → Prop}

/-! ### Frames of the write to FB and of setting DIRTY -/

theorem unchangedBut.setFb (h : unchangedBut changed s t) (hfb : ∀ p, changed (.pixel p)) (f : Framebuffer) :
    unchangedBut changed s { t with fb := f } := by
  intro part hp
  cases part
  case pixel p => exact absurd (hfb p) hp
  all_goals exact h _ hp

theorem unchangedBut.setDirty (h : unchangedBut changed s t) (hd : changed .DIRTY) (d : Bool) :
    unchangedBut changed s { t with dirty := d } := by
  intro part hp
  cases part
  case DIRTY => exact absurd hd hp
  all_goals exact h _ hp

end

/-! ### The state after a DXYN that draws (R152) -/

/-- What `execDrw` answers where its checks pass (`exec_drw`): the sprite drawn, VF, DIRTY, and pc + 2. -/
def State.afterDraw (s : State) (x y : Reg) (n : Fin 16) : State :=
  let d := drawTargets s.fb (s.sprite x y n)
  { s.setV vf (collisionFlag d.2) with fb := d.1, dirty := true }.advance

section
variable {s t : State} {x y : Reg} {n : Fin 16} {c r q : Nat}

theorem unchangedBut_afterDraw {changed : Part → Prop} (hpc : changed .pc) (hvf : changed (.reg vf)) (hdirty : changed .DIRTY)
    (hfb : ∀ p, changed (.pixel p)) : unchangedBut changed s (s.afterDraw x y n) := by
  have hflag : unchangedBut changed s (s.setV vf (collisionFlag (drawTargets s.fb (s.sprite x y n)).2)) :=
    unchangedBut.refl.setV hvf _
  exact ((hflag.setFb hfb (drawTargets s.fb (s.sprite x y n)).1).setDirty hdirty true).advance hpc

theorem sprite_inOrder : (s.sprite x y n).Pairwise scannedBefore := spriteTargets_inOrder _ _ _ _ _

/-- The draw check of R153 passes exactly when every set bit of the sprite lands on the grid. -/
theorem find_offGrid_eq_none :
    (s.sprite x y n).find? offGrid = none ↔ ∀ c r, inSprite s x y n c r → c ≤ 63 ∧ r ≤ 31 := by
  simp only [List.find?_eq_none, Bool.not_eq_true, Prod.forall, mem_sprite, offGrid_eq_false]

theorem afterDraw_getV_vf : (s.afterDraw x y n).getV vf = collisionFlag (drawTargets s.fb (s.sprite x y n)).2 :=
  s.getV_setV_same vf _

/-- Drawing leaves the sprite's source as it was, and its place too where the coordinate registers are not VF. -/
theorem inSprite_afterDraw (hx : x ≠ 15) (hy : y ≠ 15) : inSprite (s.afterDraw x y n) x y n c r ↔ inSprite s x y n c r := by
  have hreg : ∀ z : Reg, z ≠ 15 → (s.afterDraw x y n).getV z = s.getV z := fun z hz => s.getV_setV_ne hz _
  unfold inSprite
  rw [hreg x hx, hreg y hy]
  rfl

/-- DXYN whose two checks pass draws (R153). -/
theorem exec_drw (hmem : n.val = 0 ∨ s.base + n.val ≤ 4096) (hgrid : ∀ c r, inSprite s x y n c r → c ≤ 63 ∧ r ≤ 31) :
    exec (.drw x y n) s = .next (s.afterDraw x y n) := by
  simp only [exec, execDrw, checkLoads_eq_none.2 hmem, find_offGrid_eq_none.2 hgrid, State.afterDraw]

/-- A DXYN that raised no fault passed its two checks, and drew. -/
theorem eq_afterDraw_of_running (h : exec (.drw x y n) s = .next t) (ht : t.running) :
    (n.val = 0 ∨ s.base + n.val ≤ 4096) ∧ (∀ c r, inSprite s x y n c r → c ≤ 63 ∧ r ≤ 31) ∧ t = s.afterDraw x y n := by
  simp only [exec, execDrw] at h
  split at h
  · cases h
    exact absurd ht raise_not_running
  · split at h <;> cases h
    · exact absurd ht raise_not_running
    · exact ⟨checkLoads_eq_none.1 ‹_›, find_offGrid_eq_none.1 ‹_›, rfl⟩

section
variable (hgrid : ∀ c r, inSprite s x y n c r → c ≤ 63 ∧ r ≤ 31)
include hgrid

theorem sprite_onGrid : ∀ u ∈ s.sprite x y n, offGrid u = false :=
  fun u hu => offGrid_eq_false.2 (hgrid u.1 u.2 (mem_sprite.1 hu))

/-- The pixels of a framebuffer after a sprite was drawn on the grid, in terms of the set bits. -/
theorem afterDraw_pixel : (s.afterDraw x y n).fb.pixel q = true ↔
    (s.fb.pixel q = true ↔ ¬ ∃ c r, inSprite s x y n c r ∧ c + 64 * r = q) := by
  refine (drawTargets_pixel sprite_inOrder (sprite_onGrid hgrid) s.fb q).trans ?_
  simp only [Prod.exists, mem_sprite, pixelIndex]

theorem afterDraw_pixel_of_inSprite (hin : inSprite s x y n c r) :
    (s.afterDraw x y n).fb.pixel (c + 64 * r) = !s.fb.pixel (c + 64 * r) := by
  have hhit : ∃ c' r', inSprite s x y n c' r' ∧ c' + 64 * r' = c + 64 * r := ⟨c, r, hin, rfl⟩
  rw [Bool.eq_iff_iff, afterDraw_pixel hgrid, Bool.not_eq_true']
  simp only [hhit, not_true_eq_false, iff_false, Bool.not_eq_true]

theorem afterDraw_pixel_of_not (hout : ¬ ∃ c r, inSprite s x y n c r ∧ c + 64 * r = q) :
    (s.afterDraw x y n).fb.pixel q = s.fb.pixel q := by
  rw [Bool.eq_iff_iff, afterDraw_pixel hgrid]
  exact iff_true_right hout

/-- On the grid a pixel is the target of one column and row only, so that the linear index loses nothing (R153). -/
theorem inSprite_of_index_eq (hc : c ≤ 63) (h : ∃ c' r', inSprite s x y n c' r' ∧ c' + 64 * r' = c + 64 * r) :
    inSprite s x y n c r := by
  obtain ⟨c', r', hin, he⟩ := h
  obtain ⟨hc', -⟩ := hgrid c' r' hin
  obtain rfl : c' = c := by omega
  obtain rfl : r' = r := by omega
  exact hin

/-- The collision of R152: some set bit lands on a pixel that was 1. -/
theorem drawTargets_hit_iff : (drawTargets s.fb (s.sprite x y n)).2 = true ↔
    ∃ c r, inSprite s x y n c r ∧ s.fb.pixel (c + 64 * r) = true := by
  refine (drawTargets_hit sprite_inOrder (sprite_onGrid hgrid) s.fb).trans ?_
  simp only [Prod.exists, mem_sprite, pixelIndex]

theorem afterDraw_vf_eq_one_iff : (s.afterDraw x y n).getV vf = 1 ↔
    ∃ c r, inSprite s x y n c r ∧ s.fb.pixel (c + 64 * r) = true := by
  rw [← drawTargets_hit_iff hgrid, afterDraw_getV_vf]
  exact flagByte_eq_one_iff

theorem afterDraw_vf_eq_zero_iff : (s.afterDraw x y n).getV vf = 0 ↔
    ¬ ∃ c r, inSprite s x y n c r ∧ s.fb.pixel (c + 64 * r) = true := by
  rw [← drawTargets_hit_iff hgrid, afterDraw_getV_vf, Bool.not_eq_true]
  exact flagByte_eq_zero_iff

end

/-! ### The faults of DXYN (R153) -/

theorem drw_takesFault_dataOutOfRange (hpos : 0 < n.val) (h : 4096 < s.base + n.val) :
    takesFault (.drw x y n) s 2 (max s.base 4096) :=
  takesFault_of_raise (c := .dataOutOfRange) (by simp only [exec, execDrw, checkLoads_eq_some.2 ⟨hpos, h, rfl⟩])

/-- The first set bit off the grid in scan order names the fault. -/
theorem drw_takesFault_drawOutOfRange (hmem : s.base + n.val ≤ 4096) (hin : inSprite s x y n c r) (hoff : c > 63 ∨ r > 31)
    (hfirst : ∀ c' r', inSprite s x y n c' r' → scannedBefore (c', r') (c, r) → c' ≤ 63 ∧ r' ≤ 31) :
    takesFault (.drw x y n) s 6 (c + 64 * r) := by
  have hfind : (s.sprite x y n).find? offGrid = some (c, r) :=
    find_offGrid sprite_inOrder (mem_sprite.2 hin) (by simpa [offGrid] using hoff)
      fun u hu hbefore => offGrid_eq_false.2 (hfirst u.1 u.2 (mem_sprite.1 hu) hbefore)
  exact takesFault_of_raise (c := .drawOutOfRange) (by
    simp only [exec, execDrw, checkLoads_eq_none.2 (.inr hmem), hfind, pixelIndex])

end

/-! ### The statements about the display settled -/

/-- Settles O34: the framebuffer is replaced by the cleared one, all of whose pixels are 0. -/
theorem clearTurnsEveryPixelOff : Obligations.ClearTurnsEveryPixelOff := by
  unfold Obligations.ClearTurnsEveryPixelOff
  exact ⟨rfl, fun s => ⟨_, rfl, rfl, (unchangedBut.refl.setFb (fun p => .inr ⟨p, rfl⟩) _).advance (.inl rfl),
    fun p _ => Framebuffer.pixel_clear p⟩⟩

/-- Settles O35: both checks pass, and `afterDraw` toggles the pixels under set bits; on the grid each is a target once. -/
theorem drawTogglesExactlyTheSprite : Obligations.DrawTogglesExactlyTheSprite := by
  unfold Obligations.DrawTogglesExactlyTheSprite
  intro x y n s hmem hgrid
  have hframe : unchangedBut (fun part => part = .pc ∨ part = .reg vf ∨ part = .DIRTY ∨ ∃ p, part = .pixel p) s
      (s.afterDraw x y n) :=
    unchangedBut_afterDraw (.inl rfl) (.inr (.inl rfl)) (.inr (.inr (.inl rfl))) fun p => .inr (.inr (.inr ⟨p, rfl⟩))
  refine ⟨encode_drw, s.afterDraw x y n, exec_drw hmem hgrid, rfl, hframe, fun c hc r _ => ⟨?_, fun hout => ?_⟩,
    (afterDraw_vf_eq_one_iff hgrid).2, (afterDraw_vf_eq_zero_iff hgrid).2, rfl⟩
  · exact afterDraw_pixel_of_inSprite hgrid
  · exact afterDraw_pixel_of_not hgrid fun h => hout (inSprite_of_index_eq hgrid hc h)

/-- Settles O36: the memory check comes first; a set bit's row and bit number order it as its target's row and column do. -/
theorem drawFaultsInTheOrderOfTheRule : Obligations.DrawFaultsInTheOrderOfTheRule := by
  unfold Obligations.DrawFaultsInTheOrderOfTheRule
  refine fun x y n s => ⟨drw_takesFault_dataOutOfRange, fun hmem j hj i hi hbit hoff hfirst => ?_, fun hmem hgrid =>
    ⟨_, exec_drw hmem hgrid, rfl⟩⟩
  refine drw_takesFault_drawOutOfRange hmem ⟨j, hj, i, hi, hbit, rfl, rfl⟩ hoff ?_
  rintro _ _ ⟨j', hj', i', hi', hbit', rfl, rfl⟩ hbefore
  unfold scannedBefore at hbefore
  exact hfirst j' hj' i' hi' (by omega) hbit'

/-- Settles O37: the sprite is in the same place the second time, so that each pixel is toggled twice or never. -/
theorem drawingTwiceRestoresTheScreen : Obligations.DrawingTwiceRestoresTheScreen := by
  unfold Obligations.DrawingTwiceRestoresTheScreen
  intro x y n s t hx hy h _ ht
  obtain ⟨hmem, hgrid, rfl⟩ := eq_afterDraw_of_running h ht
  have hsame : ∀ c r, inSprite (s.afterDraw x y n) x y n c r ↔ inSprite s x y n c r := fun _ _ => inSprite_afterDraw hx hy
  have hgrid' : ∀ c r, inSprite (s.afterDraw x y n) x y n c r → c ≤ 63 ∧ r ≤ 31 := fun c r hin => hgrid c r ((hsame c r).1 hin)
  refine ⟨_, exec_drw hmem hgrid', ht, fun p _ => ?_, ?_⟩
  · by_cases hp : ∃ c r, inSprite s x y n c r ∧ c + 64 * r = p
    · obtain ⟨c, r, hin, rfl⟩ := hp
      rw [afterDraw_pixel_of_inSprite hgrid' ((hsame c r).2 hin), afterDraw_pixel_of_inSprite hgrid hin, Bool.not_not]
    · rw [afterDraw_pixel_of_not hgrid' (by simpa only [hsame] using hp), afterDraw_pixel_of_not hgrid hp]
  · rw [afterDraw_vf_eq_one_iff hgrid']
    refine exists_congr fun c => exists_congr fun r => (and_congr_left' (hsame c r)).trans (and_congr_right fun hin => ?_)
    rw [afterDraw_pixel_of_inSprite hgrid hin, Bool.not_eq_true']

end Sys2Proof.Machine

/-! PROOFS of the family "keypad": the two key skips where V[X] names a key, and the fault where it names none. -/

namespace Sys2Proof.Machine

section
variable {s : State} {x : Reg}

/-! ### EX9E and EXA1 by the value of V[X] (R161, R162) -/

theorem exec_skp (h : (s.getV x).toNat ≤ 15) : exec (.skp x) s = .next (s.skipIf (s.keyDown (s.keyIndex x))) :=
  if_neg (Nat.not_lt.2 h)

theorem exec_sknp (h : (s.getV x).toNat ≤ 15) : exec (.sknp x) s = .next (s.skipIf (!s.keyDown (s.keyIndex x))) :=
  if_neg (Nat.not_lt.2 h)

theorem skp_takesFault_keyIndexOutOfRange (h : 15 < (s.getV x).toNat) : takesFault (.skp x) s 7 (s.getV x).toNat :=
  takesFault_of_raise (c := .keyIndexOutOfRange) (if_pos h)

theorem sknp_takesFault_keyIndexOutOfRange (h : 15 < (s.getV x).toNat) : takesFault (.sknp x) s 7 (s.getV x).toNat :=
  takesFault_of_raise (c := .keyIndexOutOfRange) (if_pos h)

end

/-! ### The statement about the keypad settled -/

/-- Settles O38: where V[X] names a key, each meaning is one `skipIf` on that key's bit or on its negation. -/
theorem keySkipsTestTheNamedKey : Obligations.KeySkipsTestTheNamedKey := by
  unfold Obligations.KeySkipsTestTheNamedKey
  refine fun x s => ⟨encXNN_eq_append _ x _, encXNN_eq_append _ x _, fun hkey => ⟨?_, ?_⟩, fun hnone => ⟨?_, ?_⟩⟩
  · exact completes_of_skipIf (exec_skp hkey) Iff.rfl
  · exact completes_of_skipIf_not (exec_sknp hkey) Bool.not_iff_not
  · exact skp_takesFault_keyIndexOutOfRange hnone
  · exact sknp_takesFault_keyIndexOutOfRange hnone

end Sys2Proof.Machine

/-! PROOFS of the family "timers and random": the frames of a write to a timer, and the three transfers between V[X] and the
timers, alone and followed by the tick of their cycle. -/

namespace Sys2Proof.Machine

section
variable {s t : State} {changed : Part → Prop}

/-! ### Frames of the writes to DT and ST -/

theorem unchangedBut.setDt (h : unchangedBut changed s t) (hdt : changed .DT) (b : Byte) : unchangedBut changed s (t.setDt b) := by
  intro part hp
  cases part
  case DT => exact absurd hdt hp
  all_goals exact h _ hp

theorem unchangedBut.setSt (h : unchangedBut changed s t) (hst : changed .ST) (b : Byte) : unchangedBut changed s (t.setSt b) := by
  intro part hp
  cases part
  case ST => exact absurd hst hp
  all_goals exact h _ hp

end

section
variable {s : State} (x : Reg)

/-! ### The transfers without their tick (R171 to R173) -/

theorem ldVxDt_completesBy : completesBy (.ldVxDt x) s (fun part => part = .reg x) (fun t => t.getV x = s.dt) :=
  completesBy_of_setV (i := .ldVxDt x) rfl fun _ ht => ht

theorem ldDtVx_completesBy : completesBy (.ldDtVx x) s (fun part => part = .DT) (fun t => t.dt = s.getV x) :=
  ⟨_, rfl, rfl, (unchangedBut.refl.setDt (.inr rfl) (s.getV x)).advance (.inl rfl), rfl⟩

theorem ldStVx_completesBy : completesBy (.ldStVx x) s (fun part => part = .ST) (fun t => t.st = s.getV x) :=
  ⟨_, rfl, rfl, (unchangedBut.refl.setSt (.inr rfl) (s.getV x)).advance (.inl rfl), rfl⟩

/-! ### Their whole cycles: the tick acts on what the transfer left (R95) -/

theorem step_ldVxDt (hr : s.running) (hf : s.fetch = some (encode (.ldVxDt x))) :
    step s = .next (s.setV x s.dt).advance.tick :=
  (step_of_completed hr hf (decode_encode _) rfl hr rfl).1

theorem step_ldDtVx (hr : s.running) (hf : s.fetch = some (encode (.ldDtVx x))) :
    step s = .next (s.setDt (s.getV x)).advance.tick ∧ observations s = (s.setDt (s.getV x)).advance.tickEdges :=
  step_of_completed hr hf (decode_encode _) rfl hr rfl

theorem step_ldStVx (hr : s.running) (hf : s.fetch = some (encode (.ldStVx x))) :
    step s = .next (s.setSt (s.getV x)).advance.tick ∧ observations s = (s.setSt (s.getV x)).advance.tickEdges :=
  step_of_completed hr hf (decode_encode _) rfl hr rfl

end

/-! ### The statement about the timers settled -/

/-- Settles O41: the cycle is the transfer and then the tick, so that FX07 reads DT before the count and FX15 and FX18 write
the timer that the tick then counts down, with its edge where V[X] was 1. -/
theorem timerTransfers : Obligations.TimerTransfers := by
  unfold Obligations.TimerTransfers
  refine fun x s => ⟨⟨encXNN_eq_append _ x _, ldVxDt_completesBy x, fun hr hf => ?_⟩,
    ⟨encXNN_eq_append _ x _, ldDtVx_completesBy x, fun hr hf => ?_⟩,
    ⟨encXNN_eq_append _ x _, ldStVx_completesBy x, fun hr hf => ?_⟩⟩
  · exact ⟨_, step_ldVxDt x hr hf, s.getV_setV_same x s.dt, countDown_toNat s.dt⟩
  · obtain ⟨hstep, hobs⟩ := step_ldDtVx x hr hf
    exact ⟨_, hstep, countDown_toNat (s.getV x), by rw [hobs, dtEdge_mem_tickEdges, State.advance_dt, State.setDt_dt]⟩
  · obtain ⟨hstep, hobs⟩ := step_ldStVx x hr hf
    exact ⟨_, hstep, countDown_toNat (s.getV x), by rw [hobs, stEdge_mem_tickEdges, State.advance_st, State.setSt_st]⟩

end Sys2Proof.Machine

/-! PROOFS of the family "exceptions, reset and hazards": the tables of R180 and R183 against each other and against the cycle,
the cycle of a parked program, and load. -/

namespace Sys2Proof.Machine

section
variable {s t u : State} {i : Instr} {c d : Cause} {n m : Nat}

/-! ### A check of the table that fails is a fault taken (R180 to R183) -/

/-- The causes that the table of R180 gives an instruction are among those of its row of R183. -/
theorem mem_ownCauses_of_instrRaises (h : instrRaises s i c n) : c ∈ ownCauses i := by
  unfold instrRaises at h
  split at h
  case h_12 => exact h.elim
  all_goals simp [ownCauses]

/-- An instruction one of whose checks fails takes that fault, with that check's number: the cases are the rows of
`instrRaises`, in their order. -/
theorem takesFault_of_instrRaises (h : instrRaises s i c n) : takesFault i s c.code n := by
  unfold instrRaises at h
  split at h
  case h_1 =>
    obtain ⟨hsp, rfl⟩ := h
    exact takesFault_of_raise (if_pos hsp)
  case h_2 =>
    obtain ⟨hsp, rfl⟩ := h
    exact takesFault_of_raise (dif_neg (by omega))
  case h_3 =>
    obtain ⟨hkey, rfl⟩ := h
    exact skp_takesFault_keyIndexOutOfRange hkey
  case h_4 =>
    obtain ⟨hkey, rfl⟩ := h
    exact sknp_takesFault_keyIndexOutOfRange hkey
  case h_5 =>
    obtain ⟨hhigh, rfl⟩ := h
    exact bcd_takesFault_dataOutOfRange _ (by omega)
  case h_6 =>
    obtain ⟨hlow, rfl⟩ := h
    exact bcd_takesFault_glyphWrite _ hlow
  case h_7 =>
    obtain ⟨hhigh, rfl⟩ := h
    exact stRegs_takesFault_dataOutOfRange hhigh
  case h_8 =>
    obtain ⟨hlow, rfl⟩ := h
    exact stRegs_takesFault_glyphWrite _ hlow
  case h_9 =>
    obtain ⟨hhigh, rfl⟩ := h
    exact ldRegs_takesFault_dataOutOfRange hhigh
  case h_10 =>
    obtain ⟨hpos, hhigh, rfl⟩ := h
    exact drw_takesFault_dataOutOfRange hpos hhigh
  case h_11 =>
    obtain ⟨hmem, column, row, hin, hoff, rfl, hfirst⟩ := h
    exact drw_takesFault_drawOutOfRange hmem hin hoff hfirst
  case h_12 => exact h.elim

/-- A cycle in which a check of the table fails takes that fault and emits nothing else. -/
theorem step_of_cycleRaises (hr : s.running) (h : cycleRaises s c n) :
    ∃ t, step s = .next t ∧ t.fault = ⟨true, c.code, s.pc, s.fetch.getD 0, BitVec.ofNat 17 n⟩ ∧
      observations s = [t.faultSeen] ∧ unchangedBut (fun part => part = .FAULT) s t := by
  rcases h with ⟨hpc, rfl, rfl⟩ | ⟨hpc, i, hd, hi⟩
  · have hf : s.fetch = none := fetch_eq_none.2 hpc
    exact ⟨_, step_of_no_fetch hr hf, by rw [hf]; rfl, observations_of_no_fetch hr hf, .raise .refl (by rfl) _ _ _⟩
  · have hf : s.fetch = some (encode i) := fetch_eq_some.2 ⟨hpc, (encode_of_decode hd).symm⟩
    obtain ⟨t, he, hfault, hframe⟩ := takesFault_of_instrRaises hi
    obtain ⟨hstep, hobs⟩ := step_of_faulted hr hf (decode_encode i) he (congrArg FaultRecord.valid hfault)
    exact ⟨t, hstep, by rw [hfault, hf]; rfl, hobs, hframe⟩

/-- The number that the table gives a cycle fits the 17 bits of FAULT.finfo (R33, R180). -/
theorem cycleRaises_lt (h : cycleRaises s c n) : n < 2 ^ 17 := by
  rcases h with ⟨-, -, rfl⟩ | ⟨-, i, -, hi⟩
  · omega
  · exact instrRaises_lt hi

/-- No cycle fails two checks: it has one next state, whose record names the cause and holds the number whole. -/
theorem cycleRaises_unique (hr : s.running) (hc : cycleRaises s c n) (hd : cycleRaises s d m) : c = d ∧ n = m := by
  obtain ⟨t, hstep, hfault, -⟩ := step_of_cycleRaises hr hc
  obtain ⟨t', hstep', hfault', -⟩ := step_of_cycleRaises hr hd
  obtain rfl : t = t' := Host.Outcome.next.inj (hstep.symm.trans hstep')
  have hrecord := hfault.symm.trans hfault'
  have hn := cycleRaises_lt hc
  have hm := cycleRaises_lt hd
  refine ⟨Cause.code_injective (congrArg FaultRecord.cause hrecord), ?_⟩
  have hinfo : (BitVec.ofNat 17 n).toNat = (BitVec.ofNat 17 m).toNat := congrArg (fun r => r.finfo.toNat) hrecord
  rwa [BitVec.toNat_ofNat, BitVec.toNat_ofNat, Nat.mod_eq_of_lt hn, Nat.mod_eq_of_lt hm] at hinfo

/-! ### The cycle of a parked program (R216) -/

theorem unchangedBut.trans {changed : Part → Prop} (hst : unchangedBut changed s t) (htu : unchangedBut changed t u) :
    unchangedBut changed s u := by
  intro part hp
  have hs := hst part hp
  have ht := htu part hp
  cases part
  case random => exact ⟨ht.1.trans hs.1, ht.2.trans hs.2⟩
  all_goals exact Eq.trans ht hs

/-- The jump to the pc it stands at leaves nothing of its cycle but the tick. -/
theorem step_of_parked (h : s.parked) : step s = .next s.tick := by
  obtain ⟨hr, nnn, hpc, hf⟩ := h
  have he : exec (.jp nnn) s = .next s :=
    calc exec (.jp nnn) s = .next (s.jump (target nnn)) := rfl
      _ = .next (s.jump s.pc) := by rw [hpc]
      _ = .next s := rfl
  exact (step_of_completed hr hf (decode_encode _) he hr rfl).1

/-- The tick leaves a program parked: it touches neither pc nor the word there, nor FAULT. -/
theorem State.parked.tick (h : s.parked) : s.tick.parked := h

end

/-! ### The statements about faults, parking and load settled -/

/-- Settles O14: a fault raised is a check of R180 that failed, whose cause is in the row of R183; a pc above 4094 cannot be
fetched from. -/
theorem eachInstructionRaisesOnlyItsOwnFaults : Obligations.EachInstructionRaisesOnlyItsOwnFaults := by
  unfold Obligations.EachInstructionRaisesOnlyItsOwnFaults
  refine ⟨fun i s t hr he ht => ?_, fun s t hr hs ht => ?_, fun s t _ _ ht hpc => ?_⟩
  · obtain ⟨c, n, hc, rfl⟩ := exec_of_halted hr he ht
    exact ⟨c, mem_ownCauses_of_instrRaises hc, rfl⟩
  · obtain ⟨c, n, ⟨hpc, rfl, -⟩ | ⟨hpc, i, hd, hc⟩, -, rfl, -⟩ := step_of_fault hr hs ht
    · exact .inl ⟨hpc, rfl⟩
    · exact .inr ⟨i, fetch_eq_some.2 ⟨hpc, (encode_of_decode hd).symm⟩, c, mem_ownCauses_of_instrRaises hc, rfl⟩
  · exact ⟨_, step_of_no_fetch ht (fetch_eq_none.2 hpc), rfl, rfl, rfl⟩

/-- Settles O15: a check that fails is a fault taken (`step_of_cycleRaises`), and a cycle that halts the core is one of a check
that failed (`step_of_fault`). -/
theorem faultsAreExactlyThoseOfTheTable : Obligations.FaultsAreExactlyThoseOfTheTable := by
  unfold Obligations.FaultsAreExactlyThoseOfTheTable
  refine fun s hr => ⟨fun c n => step_of_cycleRaises hr, fun hnone => ?_, fun c d n m => cycleRaises_unique hr⟩
  obtain ⟨t, hs⟩ := step_next s
  refine ⟨t, hs, Bool.eq_false_iff.2 fun ht => hnone ?_⟩
  obtain ⟨c, n, hc, -⟩ := step_of_fault hr hs ht
  exact ⟨c, n, hc⟩

/-- Settles O47, by induction on the number of cycles: each is the tick alone. -/
theorem parkedProgramStaysParked : Obligations.ParkedProgramStaysParked := by
  unfold Obligations.ParkedProgramStaysParked
  intro n
  induction n with
  | zero => exact fun s hp => ⟨s, rfl, hp, rfl, rfl, rfl, .refl⟩
  | succ n ih =>
    intro s hp
    obtain ⟨t, hruns, hparked, hdt, hst, hmem, hframe⟩ := ih s.tick hp.tick
    have htick : unchangedBut (fun part => part = .DT ∨ part = .ST) s s.tick := .tick .refl (.inl rfl) (.inr rfl)
    refine ⟨t, ⟨s.tick, step_of_parked hp, hruns⟩, hparked, ?_, ?_, hmem, htick.trans hframe⟩
    · rw [hdt, State.tick_dt, countDown_toNat, Nat.sub_sub, Nat.add_comm]
    · rw [hst, State.tick_st, countDown_toNat, Nat.sub_sub, Nat.add_comm]

/-- Settles O50: load is one store at 512, which an image of at most 3584 bytes leaves inside memory. -/
theorem loadPlacesTheImage : Obligations.LoadPlacesTheImage := by
  unfold Obligations.LoadPlacesTheImage
  refine fun s image hm => ⟨fun hlen => ?_, fun hlong => if_neg (by omega)⟩
  have hload : s.load image = some (s.store 512 image) := if_pos hlen
  refine ⟨_, hload, rfl, fun k hk => ?_, unchangedBut.refl.store hm (by omega) fun k hk => ⟨k, hk, rfl⟩⟩
  rw [State.load_byte hm hload, if_pos (by omega), Nat.add_sub_cancel_left]

end Sys2Proof.Machine
